-- ==== Sys2Proof/Word.lean ====
section
/-! DEFINITION. The element types of the block's sequences (spec/00_scope.md rules R8, R12, R13;
spec/20_memory.md rules R51, R52). -/

namespace Sys2Proof

/-- An 8-bit byte; bit 7 is the most significant (R8). -/
abbrev Byte := BitVec 8

/-- A character: one 8-bit code unit (R12, decision D3 of the spec). -/
abbrev CodeUnit := BitVec 8

/-- A 5-bit symbol value; bit 4 is the most significant (R8). -/
abbrev Symbol := BitVec 5

/-- One bit of a bit sequence or bitmap: `true` is 1. -/
abbrev Bit := Bool

/-- A cap-parity result (R13): `some b` is the spec's `Some(b)`, `none` its `Erased`. -/
abbrev OptByte := Option Byte

end Sys2Proof
end

