-- ==== Sys2Proof/Config.lean ====
section
/-! DEFINITION. What an instance of the block is configured with (`CFG`, spec/10_state.md rules R25 to
R28), the parameter `MAX_LEN` (spec/30_encoding.md rule R84), and the free values of the scratch
registers (spec/93_implementation_defined.md U14). -/

namespace Sys2Proof

/-- The configuration record `CFG` (R6, R25). It is a strap: no operation writes it (R232). -/
structure Cfg where
  /-- `key_byte_count`, K -/
  keyByteCount : Nat
  /-- `base_parity_byte_count`, B -/
  baseParityByteCount : Nat
  /-- `cap_parity_byte_count`, P -/
  capParityByteCount : Nat
  /-- `prefix`; its length is the spec's `plen` -/
  prefixBytes : List Byte
  /-- `prefix_cap`; its length is the spec's `pcl` -/
  prefixCap : List Bit
  /-- `cap_segment_char_count`, S -/
  capSegmentCharCount : Nat
  /-- `encoded_char_count`, M -/
  encodedCharCount : Nat
deriving DecidableEq, Repr

/-- The number of Base32 characters that render `n` bytes: `ceil(8n/5)` (R10, R102). -/
def renderedLength (n : Nat) : Nat := (8 * n + 4) / 5

/-- The legal values of each field by itself (R25). -/
def Cfg.fieldsLegal (c : Cfg) : Bool :=
  (decide (1 ≤ c.keyByteCount) && decide (c.keyByteCount ≤ 255)) &&
  decide (c.baseParityByteCount ≤ 255) &&
  decide (c.capParityByteCount ≤ 255) &&
  decide (c.prefixBytes.length ≤ 255) &&
  decide (c.prefixCap.length ≤ 255) &&
  (decide (1 ≤ c.capSegmentCharCount) && decide (c.capSegmentCharCount ≤ 255)) &&
  decide (c.encodedCharCount < 2 ^ 16)

/-- Invariant R26 (a): M is the rendered length of `prefix ++ key ++ base_parity`. -/
def Cfg.lengthAgrees (c : Cfg) : Bool :=
  decide (c.encodedCharCount =
    renderedLength (c.prefixBytes.length + c.keyByteCount + c.baseParityByteCount))

/-- Invariant R26 (b): the casing regions fit in the string. -/
def Cfg.casingFits (c : Cfg) : Bool :=
  decide (c.prefixCap.length + c.capParityByteCount * c.capSegmentCharCount ≤ c.encodedCharCount)

/-- Invariant R26 (c): a codeword over GF(256) has at most 255 bytes (the spec marks it as general
knowledge, G1). -/
def Cfg.codewordFits (c : Cfg) : Bool :=
  decide (c.keyByteCount + c.baseParityByteCount + c.capParityByteCount ≤ 255)

/-- A legal `CFG` (R25, R26; log entry 7). An instance with another one does not exist (R232). -/
def Cfg.legal (c : Cfg) : Bool :=
  c.fieldsLegal && c.lengthAgrees && c.casingFits && c.codewordFits

/-- The one configuration family the source describes (R6), under a given prefix, with the prefix
casing 1,0,1 that the spec recovers (R27). -/
def Cfg.source (prefixBytes : List Byte) : Cfg where
  keyByteCount := 32
  baseParityByteCount := 4
  capParityByteCount := 4
  prefixBytes := prefixBytes
  prefixCap := [true, false, true]
  capSegmentCharCount := 15
  encodedCharCount := 63

/-- The configuration of kind `hck0`, prefix `38 94 24` (R28). -/
def Cfg.hck0 : Cfg := Cfg.source [0x38, 0x94, 0x24]

/-- The configuration of kind `hcs0`, prefix `38 A2 24` (R28). -/
def Cfg.hcs0 : Cfg := Cfg.source [0x38, 0xA2, 0x24]

namespace Config

/-- `MAX_LEN` (R84, decision D5 of the spec): `none` is "a model may take it infinite".
DESIGN CHOICE, safe: log entry 6. -/
def maxLen : Option Nat := none

/-- Free values: what the scratch registers hold after a command (R37, R39; U14 "any value").
Applied to the model's own counter `State.freeCount`, they give a fresh value after each command;
nothing in Lean can evaluate them. Log entry 4. -/
opaque freeAcc : Nat → BitVec 12
/-- Free value of `nbits`: see `freeAcc`. -/
opaque freeNbits : Nat → BitVec 4
/-- Free value of the element index `i`: see `freeAcc`. -/
opaque freeIndex : Nat → Nat
/-- Free value of the bit index `j`: see `freeAcc`. -/
opaque freeBitIndex : Nat → Nat
/-- Free value of the scratch `count`: see `freeAcc`. -/
opaque freeTally : Nat → Nat
/-- Free value of the scratch `bits`: see `freeAcc`. -/
opaque freeBits : Nat → List Bit
/-- Free value of `all_zero`: see `freeAcc`. -/
opaque freeAllZero : Nat → Bit
/-- Free value of `all_ones`: see `freeAcc`. -/
opaque freeAllOnes : Nat → Bit
/-- Free value of the scratch `bera`: see `freeAcc`. -/
opaque freeBera : Nat → List Bit

end Config
end Sys2Proof
end

