-- ==== Sys2Proof/Syntax.lean ====
section
/-! DEFINITION. The commands of the block, one constructor per row of spec/opcode_table.json
(spec/30_encoding.md rules R71, R82, R87), and the raw command as it stands on the ports
(spec/10_state.md rules R22, R23). -/

namespace Sys2Proof

/-- A command with its operands, in the operand order of R23 and of R86's written form. -/
inductive Instr where
  /-- `B32ENC data -> text, status` (R100) -/
  | b32enc (data : List Byte)
  /-- `B32DEC text -> data, status` (R110) -/
  | b32dec (text : List CodeUnit)
  /-- `TLCORR text -> corr, canon, cera, status` (R125) -/
  | tlcorr (text : List CodeUnit)
  /-- `CAPENC run, val, min -> run_out, count, status` (R135) -/
  | capenc (run : List CodeUnit) (val : List Bit) (min : Nat)
  /-- `CAPDEC run, era -> res, status` (R140) -/
  | capdec (run : List CodeUnit) (era : List Bit)
  /-- `CAPCHK res -> res_out, case_lost, status` (R145) -/
  | capchk (res : List OptByte)
  /-- `ERAMAP cera, skip, plen, capera, kb, cw -> bera, cw_out, count, status` (R160; operand order of
  conflict C9) -/
  | eramap (cera : List Bit) (skip plen : Nat) (capera : List Bit) (kb : Nat) (cw : List Byte)
  /-- the reserved `op = 7` (R82): reads no operand -/
  | illegal
  /-- the pseudo-operation `CAPENC.PREFIX run` (R87) -/
  | capencPrefix (run : List CodeUnit)
  /-- the pseudo-operation `CAPENC.BYTE run, b` (R87) -/
  | capencByte (run : List CodeUnit) (b : Byte)
deriving DecidableEq, Repr

/-- The operand ports (R23), each a whole sequence or a plain integer (R70). A port that an operation
does not name carries nothing: here the empty sequence or 0. -/
structure Ports where
  data : List Byte := []
  text : List CodeUnit := []
  run : List CodeUnit := []
  val : List Bit := []
  min : Nat := 0
  era : List Bit := []
  res : List OptByte := []
  cera : List Bit := []
  skip : Nat := 0
  plen : Nat := 0
  capera : List Bit := []
  kb : Nat := 0
  cw : List Byte := []
deriving DecidableEq, Repr

/-- A raw command (format `CMD`, R70): the 3-bit `op` and the operand ports presented with it. -/
structure RawCmd where
  op : BitVec 3
  ports : Ports := {}
deriving DecidableEq, Repr

/-- The name of a command (R18, R71, R82, R87), as spec/opcode_table.json spells it. -/
def Instr.mnemonic : Instr → String
  | .b32enc _ => "B32ENC"
  | .b32dec _ => "B32DEC"
  | .tlcorr _ => "TLCORR"
  | .capenc _ _ _ => "CAPENC"
  | .capdec _ _ => "CAPDEC"
  | .capchk _ => "CAPCHK"
  | .eramap _ _ _ _ _ _ => "ERAMAP"
  | .illegal => "ILLEGAL"
  | .capencPrefix _ => "CAPENC.PREFIX"
  | .capencByte _ _ => "CAPENC.BYTE"

/-- The seven operations and the reserved value, as against the two pseudo-operations, which are
another writing of `CAPENC` commands (R87). -/
def Instr.core : Instr → Bool
  | .capencPrefix _ => false
  | .capencByte _ _ => false
  | .b32enc _ => true
  | .b32dec _ => true
  | .tlcorr _ => true
  | .capenc _ _ _ => true
  | .capdec _ _ => true
  | .capchk _ => true
  | .eramap _ _ _ _ _ _ => true
  | .illegal => true

end Sys2Proof
end

