-- ==== Sys2Proof/WellFormed.lean ====
section
/-! DEFINITION. The shape of a well-formed command (spec/30_encoding.md rule R84). An ill-shaped
command "is refused (it has no meaning in the model) and has no status code". -/

namespace Sys2Proof

/-- What is wrong with the shape of a command (R84). Whoever meets one refuses the command by this
name; refusing is safe, since the spec gives such a command no meaning. -/
inductive ShapeFault where
  /-- an operand sequence is longer than `MAX_LEN` -/
  | tooLong
  /-- `CAPDEC` with `len(era) != len(run)` -/
  | eraLength
  /-- `ERAMAP` with `kb + len(capera) > L` -/
  | capWindow
deriving DecidableEq, Repr

/-- An operand length is at most `MAX_LEN` (R84). -/
def lengthOk (n : Nat) : Bool :=
  match Config.maxLen with
  | none => true
  | some m => decide (n ≤ m)

/-- The first shape check of R84 that a command fails. The lengths of the results agree with those of
the operands by construction, so only the operands are checked. -/
def Instr.shapeFault : Instr → Option ShapeFault
  | .b32enc data => if lengthOk data.length then none else some .tooLong
  | .b32dec text => if lengthOk text.length then none else some .tooLong
  | .tlcorr text => if lengthOk text.length then none else some .tooLong
  | .capenc run val _ =>
    if lengthOk run.length && lengthOk val.length then none else some .tooLong
  | .capdec run era =>
    if lengthOk run.length && lengthOk era.length then
      if era.length = run.length then none else some .eraLength
    else some .tooLong
  | .capchk res => if lengthOk res.length then none else some .tooLong
  | .eramap cera _ _ capera kb cw =>
    if lengthOk cera.length && lengthOk capera.length && lengthOk cw.length then
      if kb + capera.length ≤ cw.length then none else some .capWindow
    else some .tooLong
  | .illegal => none
  | .capencPrefix run => if lengthOk run.length then none else some .tooLong
  | .capencByte run _ => if lengthOk run.length then none else some .tooLong

/-- A well-formed command (R84). -/
abbrev Instr.wellFormed (i : Instr) : Prop := i.shapeFault = none

end Sys2Proof
end

