-- ==== Sys2Proof/Decode.lean ====
section
/-! DEFINITION. From the ports to a command and back (spec/30_encoding.md rules R70, R71, R77, R82,
R84, R87). The format is one 3-bit `op` beside the operand ports; no operand is assembled from
instruction bits (R85). -/

namespace Sys2Proof

/-- `MIN_PREFIX`, the least number of bit-carrying letters for the prefix marker (R29). -/
def minPrefix : Nat := 3

/-- `MIN_BYTE`, the least number of bit-carrying letters for a parity byte (R29). -/
def minByte : Nat := 8

/-- `bits8(b)`, the bits of a parity byte in the order in which they are consumed: most significant
first (R77, R138). -/
def bits8 (b : Byte) : List Bit :=
  [b.getLsbD 7, b.getLsbD 6, b.getLsbD 5, b.getLsbD 4, b.getLsbD 3, b.getLsbD 2, b.getLsbD 1,
    b.getLsbD 0]

/-- The command a pseudo-operation stands for (R87); every other command stands for itself. -/
def Instr.expand (cfg : Cfg) : Instr → Instr
  | .capencPrefix run => .capenc run cfg.prefixCap minPrefix
  | .capencByte run b => .capenc run (bits8 b) minByte
  | .b32enc data => .b32enc data
  | .b32dec text => .b32dec text
  | .tlcorr text => .tlcorr text
  | .capenc run val min => .capenc run val min
  | .capdec run era => .capdec run era
  | .capchk res => .capchk res
  | .eramap cera skip plen capera kb cw => .eramap cera skip plen capera kb cw
  | .illegal => .illegal

/-- The operation that `op` selects, with the operands it names taken from the ports (R71, R23);
`op = 7` is the reserved value and reads no port (R82). -/
def selectOp (op : BitVec 3) (p : Ports) : Instr :=
  match op.toNat with
  | 0 => .b32enc p.data
  | 1 => .b32dec p.text
  | 2 => .tlcorr p.text
  | 3 => .capenc p.run p.val p.min
  | 4 => .capdec p.run p.era
  | 5 => .capchk p.res
  | 6 => .eramap p.cera p.skip p.plen p.capera p.kb p.cw
  | _ => .illegal

/-- The decoder: total on every raw command; an ill-shaped one is rejected by the name of the shape
check it fails (R84). -/
def decode (c : RawCmd) : Except ShapeFault Instr :=
  match (selectOp c.op c.ports).shapeFault with
  | none => .ok (selectOp c.op c.ports)
  | some f => .error f

/-- The `op` value of a command (R71, R82); a pseudo-operation has CAPENC's (R87). -/
def Instr.opField : Instr → BitVec 3
  | .b32enc _ => 0b000#3
  | .b32dec _ => 0b001#3
  | .tlcorr _ => 0b010#3
  | .capenc _ _ _ => 0b011#3
  | .capdec _ _ => 0b100#3
  | .capchk _ => 0b101#3
  | .eramap _ _ _ _ _ _ => 0b110#3
  | .illegal => 0b111#3
  | .capencPrefix _ => 0b011#3
  | .capencByte _ _ => 0b011#3

/-- The operand ports that present a command (R23), every port that it does not name left without a
value. A pseudo-operation takes its fixed operands from R87, so `CFG` is an argument. -/
def Instr.operandPorts (cfg : Cfg) : Instr → Ports
  | .b32enc data => { data := data }
  | .b32dec text => { text := text }
  | .tlcorr text => { text := text }
  | .capenc run val min => { run := run, val := val, min := min }
  | .capdec run era => { run := run, era := era }
  | .capchk res => { res := res }
  | .eramap cera skip plen capera kb cw =>
    { cera := cera, skip := skip, plen := plen, capera := capera, kb := kb, cw := cw }
  | .illegal => {}
  | .capencPrefix run => { run := run, val := cfg.prefixCap, min := minPrefix }
  | .capencByte run b => { run := run, val := bits8 b, min := minByte }

/-- The encoder: the raw command that presents an instruction. -/
def encode (cfg : Cfg) (i : Instr) : RawCmd := { op := i.opField, ports := i.operandPorts cfg }

/-- The raw command of a table word: its low three bits on the `op` port, no operand presented. `nbits`
is how many bits of `w` are given; the bits above them are 0. Bits 3 and up of a word have no place on
the 3-bit port (the table's mask is 7). Log entry 10. -/
def rawOfTableWord (nbits w : Nat) : RawCmd := { op := BitVec.ofNat 3 (w % 2 ^ nbits) }

/-- The instruction that the decoder reads from a table word. -/
def decodeTableWord (nbits w : Nat) : Option Instr :=
  match decode (rawOfTableWord nbits w) with
  | .ok i => some i
  | .error _ => none

end Sys2Proof
end

