-- ==== Sys2Proof/Machine/State.lean ====
section
/-! DEFINITION. What one instance of the block holds (spec/10_state.md), the status codes
(spec/60_exceptions.md rule R200), and the state after reset (spec/10_state.md rule R39,
spec/70_reset_and_hazards.md rules R230 to R233). INVENTORY.md lists every field with its rule. -/

namespace Sys2Proof.Machine

/-- The status names of R200. The block returns the first four; the others name errors of the host's
programmes and are here so that those use one error type, as R200 says. The codes 4 to 7 and 15 are
never produced and have no name (U5). -/
inductive Status where
  /-- every operation: it completed -/
  | ok
  /-- `B32DEC`: a character outside the table or in a reserved slot (R112) -/
  | badInput
  /-- `B32DEC`: a malformed tail (R113) -/
  | unexpectedEof
  /-- `op = 7` (R82) -/
  | illegalOp
  /-- host, step EN1 -/
  | badDataLen
  /-- host, step DE1 -/
  | badIdLen
  /-- host, step EN5 -/
  | internalGeneratedBadLen
  /-- host, step DE6 -/
  | prefixMismatch
  /-- host, step DE9 -/
  | tooManyErrors
  /-- host, step DE11 -/
  | uncorrectable
  /-- host, kind lookup -/
  | invalidKind
deriving DecidableEq, Repr

/-- The data results of a completed operation, by operation (R23; a sum, U15). -/
inductive Results where
  /-- `B32ENC`: `text` -/
  | b32enc (text : List CodeUnit)
  /-- `B32DEC`: `data` -/
  | b32dec (data : List Byte)
  /-- `TLCORR`: `corr`, `canon`, `cera` -/
  | tlcorr (corr canon : List CodeUnit) (cera : List Bit)
  /-- `CAPENC`: `run_out`, `count` -/
  | capenc (runOut : List CodeUnit) (count : Nat)
  /-- `CAPDEC`: `res` -/
  | capdec (res : OptByte)
  /-- `CAPCHK`: `res_out`, `case_lost` -/
  | capchk (resOut : List OptByte) (caseLost : Bit)
  /-- `ERAMAP`: `bera`, `cw_out`, `count` -/
  | eramap (bera : List Bit) (cwOut : List Byte) (count : Nat)
deriving DecidableEq, Repr

/-- The scratch registers of R33 to R36. Each command starts from its own initial values and drops them
at its end (R37); between commands they hold any value (U14) and no rule reads them (R39). -/
structure Scratch where
  /-- the bit accumulator (R33, R34; 12 bits, D6) -/
  acc : BitVec 12
  /-- the bit count (R33, R34; 4 bits, D6) -/
  nbits : BitVec 4
  /-- the element index -/
  i : Nat
  /-- `CAPENC`: the index of the next unconsumed bit (R35) -/
  j : Nat
  /-- `CAPENC`: the number of bit-carrying letters so far (R35) -/
  count : Nat
  /-- `CAPDEC`: the recovered bits (R35) -/
  bits : List Bit
  /-- `CAPCHK` (R35) -/
  allZero : Bit
  /-- `CAPCHK` (R35) -/
  allOnes : Bit
  /-- `ERAMAP`: the bitmap under construction (R36) -/
  bera : List Bit
deriving DecidableEq, Repr

/-- What one instance of the block holds. -/
structure State where
  /-- the configuration strap (R25, R232) -/
  cfg : Cfg
  /-- the command port with its operand ports (R22, R23): absent when no command is presented (a port
  "has no value before or after" a command, R20) -/
  cmd : Option RawCmd
  /-- the status port: a value in the state in which a command has just ended, none in any other (R20, R24,
  R39; log entry 2) -/
  status : Option Status
  /-- the data result ports, with a value when `status` has one and is `OK` (R20, R203, U15) -/
  result : Option Results
  /-- the scratch registers (R33 to R36) -/
  scratch : Scratch
  /-- the MODEL's own counter, no state of the spec: the free values of the scratch registers are drawn
  with it (log entry 4) -/
  freeCount : Nat
deriving DecidableEq, Repr

/-- Reasons to stop with a fault: there are none. "All errors are values, not exceptions" (R203): an
error is the status of a completed command, and no access can fault (R61). -/
inductive Fault where
deriving DecidableEq, Repr

/-- Reasons why a step has no meaning. -/
inductive Refusal where
  /-- Raised by an arm of `exec` whose instruction has no meaning yet; none is left. Safe. -/
  | notModelled (mnemonic : String)
  /-- Raised by the decoder in `step` and by a meaning given an ill-shaped command: "an ill-shaped command
  is refused (it has no meaning in the model) and has no status code" (R84, R205). Safe. -/
  | illShaped (why : ShapeFault)
  /-- Raised by `step` when a command is presented under a `CFG` that violates R25 or R26: "a model gives
  such a configuration no meaning" (R26, R205). Safe. -/
  | illegalCfg
deriving DecidableEq, Repr

/-- The scratch registers after reset: unspecified and unread (R39). DESIGN CHOICE, unsafe: log entry 4. -/
def Scratch.reset : Scratch where
  acc := 0
  nbits := 0
  i := 0
  j := 0
  count := 0
  bits := []
  allZero := false
  allOnes := false
  bera := []

/-- The scratch registers between commands, after `n` commands: free values (U14; log entry 4). -/
def Scratch.free (n : Nat) : Scratch where
  acc := Config.freeAcc n
  nbits := Config.freeNbits n
  i := Config.freeIndex n
  j := Config.freeBitIndex n
  count := Config.freeTally n
  bits := Config.freeBits n
  allZero := Config.freeAllZero n
  allOnes := Config.freeAllOnes n
  bera := Config.freeBera n

/-- Instance creation, which is reset (R230), under the strap `cfg` that the host presents (R232): idle,
no command, no status, no result (R39). -/
def State.resetWith (cfg : Cfg) : State where
  cfg := cfg
  cmd := none
  status := none
  result := none
  scratch := Scratch.reset
  freeCount := 0

/-- The machine right after reset. The block has no default `CFG` (R232); the strap here is the source's
configuration for kind `hck0`. DESIGN CHOICE, unsafe: log entry 5. -/
def State.reset : State := State.resetWith Cfg.hck0

/-- The host presents a command (R23, R192). The results of the command before it have no value any more
(R20, R24; log entry 2). -/
def State.present (c : RawCmd) (s : State) : State :=
  { s with cmd := some c, status := none, result := none }

end Sys2Proof.Machine
end

