-- ==== Sys2Proof/Machine/Operands.lean ====
section
/-! DEFINITION. How the operations read their operands: characters and their case (spec/00_scope.md rule
R12), the constant tables (spec/30_encoding.md rules R72 to R75), bit streams (spec/00_scope.md rules R8,
R9), the bits of a parity byte (rules R77, R138), the erasure positions (spec/44_erasure_position_mapper.md
rule R162) and cuts of a sequence (spec/00_scope.md rule R10, spec/20_memory.md rule R57). -/

namespace Sys2Proof.Machine

/-! ### Characters (R12; the code units are ASCII's, G5, G6: log entry 14) -/

/-- `is_upper(c)` (R12) -/
def isUpper (c : CodeUnit) : Bool := decide (65 ≤ c.toNat) && decide (c.toNat ≤ 90)

/-- `is_lower(c)` (R12) -/
def isLower (c : CodeUnit) : Bool := decide (97 ≤ c.toNat) && decide (c.toNat ≤ 122)

/-- `is_alpha(c)` (R12) -/
def isAlpha (c : CodeUnit) : Bool := isUpper c || isLower c

/-- `is_digit39(c)` (R12) -/
def isDigit39 (c : CodeUnit) : Bool := decide (51 ≤ c.toNat) && decide (c.toNat ≤ 57)

/-- `to_upper(c)` (R12) -/
def toUpper (c : CodeUnit) : CodeUnit := if isLower c then c - 32 else c

/-- `to_lower(c)` (R12) -/
def toLower (c : CodeUnit) : CodeUnit := if isUpper c then c + 32 else c

/-! ### The constant tables (R30, R31, R32) -/

/-- `ALPH` (R72): `ABCDEFGHIJKMNOPQRSTUVWXYZ3456789`, indexed by symbol value. -/
def alph : List CodeUnit :=
  [65, 66, 67, 68, 69, 70, 71, 72, 73, 74, 75, 77, 78, 79, 80, 81,
   82, 83, 84, 85, 86, 87, 88, 89, 90, 51, 52, 53, 54, 55, 56, 57]

/-- `INV` (R74), indexed by `c - 51` for code units 51 to 90; `none` is `RESERVED`: the slots of
`: ; < = > ? @` and of `L` (decision D7 of the spec). -/
def inv : List (Option Symbol) :=
  [some 25, some 26, some 27, some 28, some 29, some 30, some 31,
   none, none, none, none, none, none, none,
   some 0, some 1, some 2, some 3, some 4, some 5, some 6, some 7, some 8, some 9, some 10,
   none,
   some 11, some 12, some 13, some 14, some 15, some 16, some 17, some 18, some 19, some 20, some 21,
   some 22, some 23, some 24]

/-- `sym(v) = ALPH[v]` (R73) -/
def sym (v : Symbol) : CodeUnit := alph.getD v.toNat 0

/-- The two character tests of `B32DEC` and the symbol value of a character that passes them: (a) the
code unit lies in 51..90, (b) its slot is not `RESERVED` (R112). -/
def symbolOf (c : CodeUnit) : Except Status Symbol :=
  if c.toNat < 51 ∨ 90 < c.toNat then .error .badInput
  else
    match inv.getD (c.toNat - 51) none with
    | none => .error .badInput
    | some v => .ok v

/-! ### Bit streams (R8, R9) -/

/-- The bits of a symbol value, most significant first (R8). -/
def symbolBits (v : Symbol) : List Bit :=
  [v.getLsbD 4, v.getLsbD 3, v.getLsbD 2, v.getLsbD 1, v.getLsbD 0]

/-- `bitstream(d)` (R9): stream bit `8j + t` is bit `7 - t` of `d[j]`. -/
def bitstream (d : List Byte) : List Bit := d.flatMap bits8

/-- The bit stream that the symbols of a text carry (R54): character `i` carries bits `5i` to `5i + 4`.
A character that is no symbol carries none. -/
def symbolStream (text : List CodeUnit) : List Bit :=
  text.flatMap fun c =>
    match symbolOf c with
    | .ok v => symbolBits v
    | .error _ => []

/-- The number that a sequence of bits writes, first bit most significant (R8). -/
def bitsToNat (bits : List Bit) : Nat := bits.foldl (fun n b => 2 * n + b.toNat) 0

/-- The byte that eight recovered bits assemble to, first bit most significant:
`sum over t of bits[t] * 2^(7-t)` (R138, decision D10 of the spec). -/
def byteOfBits (bits : List Bit) : Byte := BitVec.ofNat 8 (bitsToNat bits)

/-- The bit that the case of a character carries: uppercase 1, lowercase 0, none for a character that
is not alphabetic (R137). -/
def caseBit (c : CodeUnit) : Option Bit :=
  if isUpper c then some true else if isLower c then some false else none

/-! ### Erasure positions (R162) -/

/-- `b0`: the codeword position of the first byte that character `i` overlaps, on signed integers (R162). -/
def firstPosition (plen i : Nat) : Int := ((5 * i) / 8 : Nat) - (plen : Int)

/-- `b1`: the codeword position of the last byte that character `i` overlaps (R162). -/
def lastPosition (plen i : Nat) : Int := ((5 * i + 4) / 8 : Nat) - (plen : Int)

/-! ### Cuts of a sequence, for the host's programmes -/

/-- `x[a .. a+n-1]` (R10) -/
def slice {α : Type} (x : List α) (a n : Nat) : List α := (x.drop a).take n

/-- `x[a .. a+len(y)-1] <- y` (R180) -/
def splice {α : Type} (x : List α) (a : Nat) (y : List α) : List α :=
  x.take a ++ y ++ x.drop (a + y.length)

/-- The first character of cap segment `g`: `pcl + g*S` (R57, R85). -/
def segmentStart (cfg : Cfg) (g : Nat) : Nat := cfg.prefixCap.length + g * cfg.capSegmentCharCount

end Sys2Proof.Machine
end

