-- ==== Sys2Proof/Machine/Flags.lean ====
section
/-! DEFINITION. The status-like outputs (spec/10_state.md rule R24): the status codes, `case_lost` and the
erasure count. The block has no persistent flags. -/

namespace Sys2Proof.Machine

/-- The 4-bit status codes (R81, R200). -/
def Status.code : Status → BitVec 4
  | .ok => 0
  | .badInput => 1
  | .unexpectedEof => 2
  | .illegalOp => 3
  | .badDataLen => 8
  | .badIdLen => 9
  | .internalGeneratedBadLen => 10
  | .prefixMismatch => 11
  | .tooManyErrors => 12
  | .uncorrectable => 13
  | .invalidKind => 14

/-- The statuses that the block itself returns (R200: "Codes 0 to 3 are the only ones the block itself
returns"). -/
def Status.ofBlock (st : Status) : Bool := decide (st.code.toNat ≤ 3)

/-- `all_zero` of `CAPCHK`: every recovered byte is 00 (R146, R147). -/
def allZero (res : List OptByte) : Bit := res.all fun r => r == none || r == some 0x00

/-- `all_ones` of `CAPCHK`: every recovered byte is FF (R146, R147). -/
def allOnes (res : List OptByte) : Bit := res.all fun r => r == none || r == some 0xFF

/-- `case_lost` of `CAPCHK`: the casing-lost heuristic fired (R146). -/
def casingLost (res : List OptByte) : Bit := allZero res || allOnes res

/-- `count` of `ERAMAP`: the size of the erasure set, each position once (R79, R165). -/
def erasureCount (bera : List Bit) : Nat := bera.count true

end Sys2Proof.Machine
end

