-- ==== Sys2Proof/Machine/Ops.lean ====
section
/-! DEFINITION. The operations that the meanings share: ending a command with results or with an error
(spec/60_exceptions.md rule R203), refusing an ill-shaped one (spec/30_encoding.md rule R84), the fetch
of a presented command, and the function each operation computes (spec/40 to spec/44). -/

namespace Sys2Proof.Machine

/-! ### Ending a command -/

/-- The end of a command: its status and its results stand on the result ports, the command port is empty
again (R20), and the scratch registers hold nothing that survives the command (R37): free values, drawn
with the model's own counter (log entry 4). `CFG` has no writer (R25). -/
def endCommand (st : Status) (r : Option Results) (s : State) : State where
  cfg := s.cfg
  cmd := none
  status := some st
  result := r
  scratch := Scratch.free s.freeCount
  freeCount := s.freeCount + 1

/-- A command that completes: status `OK` and its data results (R200). -/
def complete (r : Results) (s : State) : State := endCommand .ok (some r) s

/-- `raise <Error>` (R11, R203): the command ends at once with the error's status and no data result.
Nothing is saved, no mode changes, nothing is entered; the block is idle again. There is no return from
it (R204). -/
def raise (e : Status) (s : State) : State := endCommand e none s

/-- The end of an operation that answers data or an error: "bytes | Error" (R62, R203). -/
def deliver (r : Except Status Results) (s : State) : State :=
  match r with
  | .ok d => complete d s
  | .error e => raise e s

/-- A well-formed command ends in the given state; an ill-shaped one is refused by name (R84, R205). -/
def serve (i : Instr) (after : State) : Host.Outcome State Fault Refusal :=
  match i.shapeFault with
  | none => .next after
  | some f => .refused (.illShaped f)

/-! ### The presented command -/

/-- The command that stands on the command port, if the host has presented one (R22). -/
def fetch (s : State) : Option RawCmd := s.cmd

/-- A step of the block with no command presented: it is idle and computes nothing (R218; log entry 3). The
command that ended before it is over, so its result ports have no value any more (R20, R24; log entry 2). -/
def idle (s : State) : State := { s with status := none, result := none }

/-- Whether the instance exists in the model: its `CFG` is legal (R26, R205, R232). -/
def checkInstance (s : State) : Option Refusal := if s.cfg.legal then none else some .illegalCfg

/-! ### Base32 (R101, R111) -/

/-- The scratch of `B32ENC` and `B32DEC` inside a command: the bit accumulator and the bit count (R33,
R34). The buffered bits are the `nbits` low bits of `acc`, oldest bit most significant (R101). -/
structure BitBuffer where
  acc : Nat
  nbits : Nat
deriving DecidableEq, Repr

/-- The initial value at the start of every command (R33). -/
def emptyBuffer : BitBuffer := { acc := 0, nbits := 0 }

/-- `acc <- (acc << k) | v; nbits <- nbits + k` for a new element `v` of `k` bits (R101, R111). -/
def pushBits (k v : Nat) (b : BitBuffer) : BitBuffer :=
  { acc := b.acc * 2 ^ k + v, nbits := b.nbits + k }

/-- The top `k` of the buffered bits (R101, R111). -/
def topBits (k : Nat) (b : BitBuffer) : Nat := b.acc / 2 ^ (b.nbits - k) % 2 ^ k

/-- "retain the remainder": `nbits <- nbits - k; acc <- low(acc, nbits)` (R101, R111). -/
def dropBits (k : Nat) (b : BitBuffer) : BitBuffer :=
  { acc := b.acc % 2 ^ (b.nbits - k), nbits := b.nbits - k }

/-- `while nbits >= 5`: emit the symbol of the top five bits and retain the remainder (R101). The first
argument bounds the number of rounds. -/
def emitSymbols : Nat → BitBuffer → List CodeUnit × BitBuffer
  | 0, b => ([], b)
  | rounds + 1, b =>
    if 5 ≤ b.nbits then
      let r := emitSymbols rounds (dropBits 5 b)
      (sym (BitVec.ofNat 5 (topBits 5 b)) :: r.1, r.2)
    else ([], b)

/-- The loop of `B32ENC` over the remaining bytes, and its tail: the left-over bits fill the high end of
one last symbol, zeros its low end (R101). Each byte needs at most two rounds. -/
def b32encFrom : BitBuffer → List Byte → List CodeUnit
  | b, [] =>
    if 0 < b.nbits then [sym (BitVec.ofNat 5 (b.acc * 2 ^ (5 - b.nbits)))] else []
  | b, d :: ds =>
    let r := emitSymbols (b.nbits + 8) (pushBits 8 d.toNat b)
    r.1 ++ b32encFrom r.2 ds

/-- What `B32ENC` computes (R101). -/
def b32enc (data : List Byte) : List CodeUnit := b32encFrom emptyBuffer data

/-- `if nbits >= 8`: emit the top eight bits as a byte and retain the remainder (R111). -/
def emitByte (b : BitBuffer) : List Byte × BitBuffer :=
  if 8 ≤ b.nbits then ([BitVec.ofNat 8 (topBits 8 b)], dropBits 8 b) else ([], b)

/-- The two tests of the tail (R113): a whole symbol left over, or left-over bits that are not all zero. -/
def tailOk (b : BitBuffer) : Bool :=
  if 5 ≤ b.nbits then false else decide (b.acc * 2 ^ (8 - b.nbits) % 2 ^ 8 = 0)

/-- The loop of `B32DEC` over the remaining characters, and its tail (R111): a bad character ends it at
once (R112); the tail is tested after all characters have passed (R113, R209). -/
def b32decFrom : BitBuffer → List CodeUnit → Except Status (List Byte)
  | b, [] => if tailOk b then .ok [] else .error .unexpectedEof
  | b, c :: cs =>
    match symbolOf c with
    | .error e => .error e
    | .ok v =>
      let r := emitByte (pushBits 5 v.toNat b)
      match b32decFrom r.2 cs with
      | .error e => .error e
      | .ok rest => .ok (r.1 ++ rest)

/-- What `B32DEC` computes (R111). -/
def b32dec (text : List CodeUnit) : Except Status (List Byte) := b32decFrom emptyBuffer text

/-! ### Transliteration (R126) -/

/-- `corr[i]` and `cera[i]` of `TLCORR` for one character, the cases in the rule's order (R126). -/
def transliterate (c : CodeUnit) : CodeUnit × Bit :=
  if c.toNat = 48 then (79, false)
  else if c.toNat = 49 ∨ c.toNat = 108 ∨ c.toNat = 76 then (73, false)
  else if c.toNat = 50 then (90, false)
  else if isUpper c || isLower c || isDigit39 c then (c, false)
  else (65, true)

/-- `corr`: the corrected text, its letter case kept (R125, R128). -/
def correctedText (text : List CodeUnit) : List CodeUnit := text.map fun c => (transliterate c).1

/-- `canon`: the corrected text in uppercase (R125, R128). -/
def canonicalText (text : List CodeUnit) : List CodeUnit :=
  text.map fun c => toUpper (transliterate c).1

/-- `cera`: the char-erasure bitmap (R78, R125). -/
def charErasures (text : List CodeUnit) : List Bit := text.map fun c => (transliterate c).2

/-! ### Capitalization parity (R136, R141, R146) -/

/-- The walk of `CAPENC` over the run with the bits not yet consumed: each letter takes the next bit in
its case, a letter after the last bit becomes lowercase, other characters stay (R136). It answers the run
and the number of letters that carried a bit. -/
def carryBits : List Bit → List CodeUnit → List CodeUnit × Nat
  | _, [] => ([], 0)
  | val, c :: cs =>
    if isAlpha c then
      match val with
      | b :: rest =>
        let r := carryBits rest cs
        ((if b then toUpper c else toLower c) :: r.1, r.2 + 1)
      | [] =>
        let r := carryBits [] cs
        (toLower c :: r.1, r.2)
    else
      let r := carryBits val cs
      (c :: r.1, r.2)

/-- What `CAPENC` computes: `run_out` and `count`; below the threshold the whole run is lowercase (R136). -/
def capenc (run : List CodeUnit) (val : List Bit) (min : Nat) : List CodeUnit × Nat :=
  let r := carryBits val run
  (if r.2 < min then run.map toLower else r.1, r.2)

/-- The walk of `CAPDEC`: the case bits of the next letters, at most as many as there are free bit slots
(R141, R143). -/
def recoverBits : Nat → List CodeUnit → List Bit
  | 0, _ => []
  | _ + 1, [] => []
  | slots + 1, c :: cs =>
    match caseBit c with
    | some b => b :: recoverBits slots cs
    | none => recoverBits (slots + 1) cs

/-- What `CAPDEC` computes (R141): `Erased` when any character of the run is erased (R142) or fewer than
eight bits are recovered (R143). -/
def capdec (run : List CodeUnit) (era : List Bit) : OptByte :=
  if era.any id then none
  else if (recoverBits minByte run).length < minByte then none
  else some (byteOfBits (recoverBits minByte run))

/-- `res_out` of `CAPCHK`: all erased when the casing was lost, the input otherwise (R146). -/
def capchk (res : List OptByte) : List OptByte :=
  if casingLost res then res.map fun _ => none else res

/-! ### Erasure positions (R161) -/

/-- The cap-parity erasures: bit `g` of `capera` marks position `kb + g` (R161). The second argument is
the `g` of the next bit. -/
def markCapErasures (kb : Nat) : Nat → List Bit → List Bit → List Bit
  | _, [], bera => bera
  | g, e :: es, bera => markCapErasures kb (g + 1) es (if e then bera.set (kb + g) true else bera)

/-- A re-based position is marked when it lies in the codeword and dropped otherwise (R163). -/
def markPosition (p : Int) (bera : List Bit) : List Bit :=
  if 0 ≤ p ∧ p < bera.length then bera.set p.toNat true else bera

/-- The character erasures: an erased character marks both byte positions it overlaps (R161). The second
argument is the index of the next character. -/
def markCharErasures (plen : Nat) : Nat → List Bit → List Bit → List Bit
  | _, [], bera => bera
  | i, e :: es, bera =>
    markCharErasures plen (i + 1) es
      (if e then markPosition (lastPosition plen i) (markPosition (firstPosition plen i) bera)
       else bera)

/-- `bera` of `ERAMAP`: the erasure set over a codeword of `len` bytes; the characters below `skip` are
passed over (R161). -/
def erasureSet (cera : List Bit) (skip plen : Nat) (capera : List Bit) (kb len : Nat) : List Bit :=
  markCharErasures plen skip (cera.drop skip)
    (markCapErasures kb 0 capera (List.replicate len false))

/-- `cw_out` of `ERAMAP`: the codeword with every erased position 00 (R164). -/
def zeroForce (bera : List Bit) (cw : List Byte) : List Byte :=
  List.zipWith (fun e b => if e then 0x00 else b) bera cw

end Sys2Proof.Machine
end

