-- ==== Sys2Proof/Machine/Base32.lean ====
section
/-! DEFINITION. The meanings of `B32ENC` and `B32DEC` (spec/40_base32_encoder.md,
spec/41_base32_decoder.md). -/

namespace Sys2Proof.Machine

/-- `B32ENC` (R101): always `OK` (R103). -/
def execB32enc (data : List Byte) (s : State) : Host.Outcome State Fault Refusal :=
  serve (.b32enc data) (complete (.b32enc (b32enc data)) s)

/-- `B32DEC` (R111): the bytes, or `BadInput` or `UnexpectedEof` and no data (R112 to R114). -/
def execB32dec (text : List CodeUnit) (s : State) : Host.Outcome State Fault Refusal :=
  serve (.b32dec text) (deliver ((b32dec text).map .b32dec) s)

end Sys2Proof.Machine
end

