-- ==== Sys2Proof/Machine/Capitalization.lean ====
section
/-! DEFINITION. The meanings of `CAPENC`, `CAPDEC`, `CAPCHK` and of the two pseudo-operations
(spec/43_capitalization_parity_packer.md, spec/30_encoding.md rule R87). -/

namespace Sys2Proof.Machine

/-- A `CAPENC` command with the given operands (R136), shared by `CAPENC` and its pseudo-operations. -/
def capencWith (run : List CodeUnit) (val : List Bit) (min : Nat) (s : State) :
    Host.Outcome State Fault Refusal :=
  serve (.capenc run val min)
    (complete (.capenc (capenc run val min).1 (capenc run val min).2) s)

/-- `CAPENC` (R136): always `OK` (R139). -/
def execCapenc (run : List CodeUnit) (val : List Bit) (min : Nat) (s : State) :
    Host.Outcome State Fault Refusal :=
  capencWith run val min s

/-- `CAPDEC` (R141): always `OK`; `Erased` is a value (R144). -/
def execCapdec (run : List CodeUnit) (era : List Bit) (s : State) :
    Host.Outcome State Fault Refusal :=
  serve (.capdec run era) (complete (.capdec (capdec run era)) s)

/-- `CAPCHK` (R146): always `OK` (R148). -/
def execCapchk (res : List OptByte) (s : State) : Host.Outcome State Fault Refusal :=
  serve (.capchk res) (complete (.capchk (capchk res) (casingLost res)) s)

/-- `CAPENC.PREFIX run` is `CAPENC run, CFG.prefix_cap, 3` (R87). -/
def execCapencPrefix (run : List CodeUnit) (s : State) : Host.Outcome State Fault Refusal :=
  capencWith run s.cfg.prefixCap minPrefix s

/-- `CAPENC.BYTE run, b` is `CAPENC run, bits8(b), 8` (R87). -/
def execCapencByte (run : List CodeUnit) (b : Byte) (s : State) :
    Host.Outcome State Fault Refusal :=
  capencWith run (bits8 b) minByte s

end Sys2Proof.Machine
end

