-- ==== Sys2Proof/Machine/Erasure.lean ====
section
/-! DEFINITION. The meaning of `ERAMAP` (spec/44_erasure_position_mapper.md). -/

namespace Sys2Proof.Machine

/-- `ERAMAP` (R161): the erasure set, the zero-forced codeword and the count, always `OK` (R165). -/
def execEramap (cera : List Bit) (skip plen : Nat) (capera : List Bit) (kb : Nat) (cw : List Byte)
    (s : State) : Host.Outcome State Fault Refusal :=
  let bera := erasureSet cera skip plen capera kb cw.length
  serve (.eramap cera skip plen capera kb cw)
    (complete (.eramap bera (zeroForce bera cw) (erasureCount bera)) s)

end Sys2Proof.Machine
end

