-- ==== Sys2Proof/Machine/Reserved.lean ====
section
/-! DEFINITION. The meaning of the reserved operation select (spec/30_encoding.md rule R82). -/

namespace Sys2Proof.Machine

/-- `op = 7` (R82): completes at once with `IllegalOp`, reads no operand and produces no data result. -/
def execIllegal (s : State) : Host.Outcome State Fault Refusal :=
  .next (raise .illegalOp s)

end Sys2Proof.Machine
end

