-- ==== Sys2Proof/Machine/Transliteration.lean ====
section
/-! DEFINITION. The meaning of `TLCORR` (spec/42_transliteration_corrector.md). -/

namespace Sys2Proof.Machine

/-- `TLCORR` (R126): two texts and the char-erasure bitmap (R125, R128), always `OK` (R129). -/
def execTlcorr (text : List CodeUnit) (s : State) : Host.Outcome State Fault Refusal :=
  serve (.tlcorr text)
    (complete (.tlcorr (correctedText text) (canonicalText text) (charErasures text)) s)

end Sys2Proof.Machine
end

