-- ==== Sys2Proof/Machine/Dispatch.lean ====
section
/-! DEFINITION. One arm per constructor of `Instr` (spec/30_encoding.md rule R71). -/

namespace Sys2Proof.Machine

/-- What a command does. -/
def exec (i : Instr) (s : State) : Host.Outcome State Fault Refusal :=
  match i with
  | .b32enc data => Sys2Proof.Machine.execB32enc data s
  | .b32dec text => Sys2Proof.Machine.execB32dec text s
  | .tlcorr text => Sys2Proof.Machine.execTlcorr text s
  | .capenc run val min => Sys2Proof.Machine.execCapenc run val min s
  | .capdec run era => Sys2Proof.Machine.execCapdec run era s
  | .capchk res => Sys2Proof.Machine.execCapchk res s
  | .eramap cera skip plen capera kb cw => Sys2Proof.Machine.execEramap cera skip plen capera kb cw s
  | .illegal => Sys2Proof.Machine.execIllegal s
  | .capencPrefix run => Sys2Proof.Machine.execCapencPrefix run s
  | .capencByte run b => Sys2Proof.Machine.execCapencByte run b s

end Sys2Proof.Machine
end

