-- ==== Sys2Proof/Machine/Step.lean ====
section
/-! DEFINITION. One step of the machine: the block performs the presented command whole
(spec/00_scope.md rule R15, spec/70_reset_and_hazards.md rule R242). -/

namespace Sys2Proof.Machine

/-- One step. With no command presented the block is idle (R218). Under an illegal `CFG` a presented
command is refused (R26, R205); an ill-shaped command is refused by the decoder's name for it (R84);
any other is performed to completion (R21). -/
def step (s : State) : Host.Outcome State Fault Refusal :=
  match fetch s with
  | none => .next (idle s)
  | some c =>
    match checkInstance s with
    | some r => .refused r
    | none =>
      match decode c with
      | .error f => .refused (.illShaped f)
      | .ok i => exec i s

/-- The command of a table word, presented with no operands, is what the next step performs (log
entry 10). -/
def State.withFetchWord (s : State) (nbits w : Nat) : State := s.present (rawOfTableWord nbits w)

end Sys2Proof.Machine
end

