-- ==== Sys2Proof/Machine/HostProgrammes.lean ====
section
/-! DEFINITION. The host's programmes over the block (spec/45_host_pipeline.md): the kind lookup,
`HC.ENCODE`, `HC.DECODE` and `HC.ISCORRUPT`. They are outside the block (spec/00_scope.md rule R4): each
block command of a programme is presented on the ports and performed by `step`, and the host's own
buffers (spec/10_state.md rule R38) are the values the programme passes on. The Reed-Solomon primitive
and the kind table are parameters (log entries 12, 13). -/

namespace Sys2Proof.Machine

/-! ### The external collaborators -/

/-- The Reed-Solomon primitive `RS` (R176, R177): three functions of their arguments alone. Nothing is
assumed of them here; what a claim needs it takes as a hypothesis. -/
structure ReedSolomon where
  /-- `RS.encode(data) -> parity_bytes` -/
  encode : List Byte → List Byte
  /-- `RS.correct(codeword_with_zeroed_erasures, erasure_positions)`; `none` when it fails -/
  correct : List Byte → List Nat → Option (List Byte)
  /-- `RS.is_corrupted(codeword)` -/
  isCorrupted : List Byte → Bool

/-- The form of a kind token (R88): four bytes, `h`, `c`, a tag, and a version `0` or `1`. Which tags are
assigned is the kind table's to say. -/
def tokenForm (token : List Byte) : Bool :=
  match token with
  | [h, c, _, version] => h == 104 && c == 99 && (version == 48 || version == 49)
  | _ => false

/-- The kind lookup (R178): a token that the table knows gives the source's configuration with its prefix,
any other fails with `InvalidKind`. `table` is the parameter `KIND_TABLE`. -/
def configOfKind (table : List Byte → Option (List Byte)) (token : List Byte) : Except Status Cfg :=
  if tokenForm token then
    match table token with
    | some p => .ok (Cfg.source p)
    | none => .error .invalidKind
  else .error .invalidKind

/-- Instance creation (R230, R232, R234): the host checks the invariants of R26 and a fresh instance
exists only under a legal `CFG`. -/
def createInstance (cfg : Cfg) : Except Refusal State :=
  if cfg.legal then .ok (State.resetWith cfg) else .error .illegalCfg

/-! ### Programmes -/

/-- A host programme: it drives one instance of the block and ends with a value or with an error status.
A refused command stops it. -/
abbrev Programme (α : Type) := State → Host.Outcome (State × Except Status α) Fault Refusal

/-- A programme that ends with a value. -/
def finishWith {α : Type} (a : α) : Programme α := fun s => .next (s, .ok a)

/-- A host step that fails (R180, R184: "fail"). -/
def failWith {α : Type} (e : Status) : Programme α := fun s => .next (s, .error e)

/-- One programme after another; the first failing step decides the error (R210). -/
def andThen {α β : Type} (m : Programme α) (f : α → Programme β) : Programme β := fun s =>
  match m s with
  | .next (t, .ok a) => f a t
  | .next (t, .error e) => .next (t, .error e)
  | .fault r => .fault r
  | .refused r => .refused r

/-- What the host reads after a command: the status first, and the data results only when it is `OK`
(R206, R235). After a command there is a status, and a result exactly with `OK`, so the last case and an
`OK` without a result do not arise. -/
def reply (s : State) : Except Status Results :=
  match s.status, s.result with
  | some .ok, some r => .ok r
  | some st, _ => .error st
  | none, _ => .error .illegalOp

/-- The host presents a command and the block performs it (R192). -/
def issue (i : Instr) : Programme Results := fun s =>
  match step (s.present (encode s.cfg i)) with
  | .next t => .next (t, reply t)
  | .fault r => .fault r
  | .refused r => .refused r

/-! ### The results of a command, by port -/

/-- `text` of `B32ENC` -/
def Results.textPort : Results → List CodeUnit
  | .b32enc text => text
  | _ => []

/-- `data` of `B32DEC` -/
def Results.dataPort : Results → List Byte
  | .b32dec data => data
  | _ => []

/-- `corr` of `TLCORR` -/
def Results.corrPort : Results → List CodeUnit
  | .tlcorr corr _ _ => corr
  | _ => []

/-- `canon` of `TLCORR` -/
def Results.canonPort : Results → List CodeUnit
  | .tlcorr _ canon _ => canon
  | _ => []

/-- `cera` of `TLCORR` -/
def Results.ceraPort : Results → List Bit
  | .tlcorr _ _ cera => cera
  | _ => []

/-- `run_out` of `CAPENC` -/
def Results.runOutPort : Results → List CodeUnit
  | .capenc runOut _ => runOut
  | _ => []

/-- `res` of `CAPDEC` -/
def Results.resPort : Results → OptByte
  | .capdec res => res
  | _ => none

/-- `res_out` of `CAPCHK` -/
def Results.resOutPort : Results → List OptByte
  | .capchk resOut _ => resOut
  | _ => []

/-- `bera` of `ERAMAP` -/
def Results.beraPort : Results → List Bit
  | .eramap bera _ _ => bera
  | _ => []

/-- `cw_out` of `ERAMAP` -/
def Results.cwOutPort : Results → List Byte
  | .eramap _ cwOut _ => cwOut
  | _ => []

/-- `count` of `ERAMAP` -/
def Results.countPort : Results → Nat
  | .eramap _ _ count => count
  | _ => 0

/-! ### HC.ENCODE (R179, R180) -/

/-- Step EN6: the prefix-casing region (`CAPENC.PREFIX`, R87). -/
def castMarker (cfg : Cfg) (text : List CodeUnit) : Programme (List CodeUnit) :=
  andThen (issue (.capencPrefix (slice text 0 cfg.prefixCap.length))) fun r =>
    finishWith (splice text 0 r.runOutPort)

/-- Step EN7 from segment `g` on: each cap-parity byte into its segment (`CAPENC.BYTE`, R87). -/
def castSegments (cfg : Cfg) : Nat → List Byte → List CodeUnit → Programme (List CodeUnit)
  | _, [], text => finishWith text
  | g, b :: bs, text =>
    andThen (issue (.capencByte (slice text (segmentStart cfg g) cfg.capSegmentCharCount) b)) fun r =>
      castSegments cfg (g + 1) bs (splice text (segmentStart cfg g) r.runOutPort)

/-- The base-parity bytes: the first B of the parity (EN3, R181). -/
def baseParity (cfg : Cfg) (par : List Byte) : List Byte := par.take cfg.baseParityByteCount

/-- The cap-parity bytes: the next P of the parity (EN3, R181). -/
def capParity (cfg : Cfg) (par : List Byte) : List Byte :=
  slice par cfg.baseParityByteCount cfg.capParityByteCount

/-- `HC.ENCODE` (R180), steps EN1 to EN8. -/
def hcEncode (rs : ReedSolomon) (key : List Byte) : Programme (List CodeUnit) := fun s =>
  if key.length ≠ s.cfg.keyByteCount then failWith .badDataLen s
  else
    andThen (issue (.b32enc (s.cfg.prefixBytes ++ key ++ baseParity s.cfg (rs.encode key))))
      (fun r =>
        if r.textPort.length ≠ s.cfg.encodedCharCount then failWith .internalGeneratedBadLen
        else
          andThen (castMarker s.cfg r.textPort)
            (castSegments s.cfg 0 (capParity s.cfg (rs.encode key))))
      s

/-! ### HC.DECODE (R183, R184) -/

/-- Step DE3 for the next `n` segments from `g` on. -/
def readSegments (cfg : Cfg) (corr : List CodeUnit) (cera : List Bit) :
    Nat → Nat → Programme (List OptByte)
  | 0, _ => finishWith []
  | n + 1, g =>
    andThen
      (issue (.capdec (slice corr (segmentStart cfg g) cfg.capSegmentCharCount)
        (slice cera (segmentStart cfg g) cfg.capSegmentCharCount)))
      fun r => andThen (readSegments cfg corr cera n (g + 1)) fun rest => finishWith (r.resPort :: rest)

/-- The codeword of step DE7: the bytes after the prefix, then the cap-parity bytes, 00 for an erased one
(R185). -/
def assembleCodeword (cfg : Cfg) (full : List Byte) (res : List OptByte) : List Byte :=
  slice full cfg.prefixBytes.length (cfg.keyByteCount + cfg.baseParityByteCount) ++
    res.map fun r => r.getD 0x00

/-- The set of erased positions `{ b | bera[b] = 1 }` in ascending order (R79, R188). -/
def erasedPositions (bera : List Bit) : List Nat :=
  (List.range bera.length).filter fun b => bera.getD b false

/-- The erasure budget `floor((B + P)/2)` (R187). -/
def erasureBudget (cfg : Cfg) : Nat := (cfg.baseParityByteCount + cfg.capParityByteCount) / 2

/-- What steps DE1 to DE9 arrive at: the zero-forced codeword, its erasure set and the size of that. -/
structure Analysis where
  cw : List Byte
  bera : List Bit
  count : Nat
deriving DecidableEq, Repr

/-- Steps DE6 to DE9: the prefix check on the uncorrected bytes (R186), the codeword (R185), `ERAMAP`, and
the erasure budget (R187). -/
def analyseCodeword (cfg : Cfg) (cera : List Bit) (res : List OptByte) (full : List Byte) :
    Programme Analysis :=
  if slice full 0 cfg.prefixBytes.length ≠ cfg.prefixBytes then failWith .prefixMismatch
  else
    andThen
      (issue (.eramap cera cfg.prefixCap.length cfg.prefixBytes.length
        (res.map Option.isNone) (cfg.keyByteCount + cfg.baseParityByteCount)
        (assembleCodeword cfg full res)))
      fun r =>
        if erasureBudget cfg < r.countPort then failWith .tooManyErrors
        else finishWith { cw := r.cwOutPort, bera := r.beraPort, count := r.countPort }

/-- Steps DE1 to DE9 of `HC.DECODE` (R184). -/
def hcAnalyse (id : List CodeUnit) : Programme Analysis := fun s =>
  if id.length ≠ s.cfg.encodedCharCount then failWith .badIdLen s
  else
    andThen (issue (.tlcorr id))
      (fun tl =>
        andThen (readSegments s.cfg tl.corrPort tl.ceraPort s.cfg.capParityByteCount 0) fun res =>
          andThen (issue (.capchk res)) fun chk =>
            andThen (issue (.b32dec tl.canonPort)) fun dec =>
              analyseCodeword s.cfg tl.ceraPort chk.resOutPort dec.dataPort)
      s

/-- Steps DE10 and DE11 (R188): the fast path, or the correction. -/
def correctedKey (rs : ReedSolomon) (cfg : Cfg) (a : Analysis) : Except Status (List Byte) :=
  if a.count = 0 ∧ rs.isCorrupted a.cw = false then .ok (a.cw.take cfg.keyByteCount)
  else
    match rs.correct a.cw (erasedPositions a.bera) with
    | some r => .ok (r.take cfg.keyByteCount)
    | none => .error .uncorrectable

/-- `HC.DECODE` (R184), steps DE1 to DE11. -/
def hcDecode (rs : ReedSolomon) (id : List CodeUnit) : Programme (List Byte) :=
  andThen (hcAnalyse id) fun a s => .next (s, correctedKey rs s.cfg a)

/-! ### HC.ISCORRUPT (R190) -/

/-- The verdict of steps IC1 to IC3 on what the analysis arrived at: any error is "corrupt" (R207). -/
def corruptVerdict (rs : ReedSolomon) : Except Status Analysis → Bool
  | .error _ => true
  | .ok a => if 0 < a.count then true else rs.isCorrupted a.cw

/-- `HC.ISCORRUPT` (R190): it never returns an error. -/
def hcIscorrupt (rs : ReedSolomon) (id : List CodeUnit) : Programme Bool := fun s =>
  match hcAnalyse id s with
  | .next (t, r) => .next (t, .ok (corruptVerdict rs r))
  | .fault r => .fault r
  | .refused r => .refused r

end Sys2Proof.Machine
end

