-- ==== Sys2Proof/Safety.lean ====
section
/-! DEFINITION. The terms that claims about the machine use: what the results of a command satisfy by
themselves, the invariant of the block, the closed forms of the rules, and what a claim about the host's
programmes assumes of the Reed-Solomon primitive and says of the composed codec (spec/45_host_pipeline.md
rules R176, R177, R191). -/

namespace Sys2Proof.Machine

/-! ### The invariant -/

/-- What the data results of a completed operation satisfy, whatever its operands were: the text of
`B32ENC` is over `ALPH` and has a length that renders whole bytes (R104, R56); the texts of `TLCORR` agree,
`canon` is over `ALPH`, an erased position holds the placeholder (R130); `CAPENC` counts no more letters
than the run has (R136); `CAPCHK` with the casing lost delivers nothing but `Erased`, otherwise bytes on
which its heuristic does not fire (R146); the results of `ERAMAP` have one length, its count is the number
of erased positions and an erased byte is 00 (R79, R164, R165). -/
def Results.wf : Results → Bool
  | .b32enc text =>
    text.all (fun c => alph.contains c) && [0, 2, 4, 5, 7].contains (text.length % 8)
  | .b32dec _ => true
  | .tlcorr corr canon cera =>
    canon == corr.map toUpper && canon.all (fun c => alph.contains c) &&
      corr.length == cera.length && (corr.zip cera).all (fun p => !p.2 || p.1 == 65)
  | .capenc runOut count => decide (count ≤ runOut.countP isAlpha)
  | .capdec _ => true
  | .capchk resOut caseLost => if caseLost then resOut.all Option.isNone else !casingLost resOut
  | .eramap bera cwOut count =>
    bera.length == cwOut.length && count == erasureCount bera &&
      (bera.zip cwOut).all (fun p => !p.1 || p.2 == 0x00)

/-- The status and the results fit each other: none before the first command (R39); a result exactly with
`OK`, and it satisfies `Results.wf`; otherwise a status that the block itself returns (R200, R203). -/
def replyFits : Option Status → Option Results → Bool
  | none, none => true
  | none, some _ => false
  | some st, none => st.ofBlock && st != .ok
  | some st, some r => st == .ok && r.wf

/-- The invariant of an instance: its `CFG` is legal (R26, R232) and its status and results fit. -/
def State.coherent (s : State) : Bool := s.cfg.legal && replyFits s.status s.result

/-- The invariant, as a proposition. -/
abbrev Coherent (s : State) : Prop := s.coherent = true

/-! ### Closed forms -/

/-- The five stream bits of character `i`, the stream extended by zeros (R102). -/
def fiveBits (stream : List Bit) (i : Nat) : List Bit :=
  (List.range 5).map fun t => stream.getD (5 * i + t) false

/-- A character that fails the tests of `B32DEC` (R111): outside 51..90, or in a `RESERVED` slot. -/
def rejected (c : CodeUnit) : Prop :=
  c.toNat < 51 ∨ 90 < c.toNat ∨ inv.getD (c.toNat - 51) none = none

/-- The bits left over after the last whole byte of a text of `m` characters (R56, R113). -/
def leftOver (text : List CodeUnit) : List Bit :=
  (symbolStream text).drop (8 * (5 * text.length / 8))

/-- The bit buffer of `B32ENC` between two bytes, after the bytes `data` (R101). -/
def bufferAfter (data : List Byte) : BitBuffer :=
  data.foldl (fun b d => (emitSymbols (b.nbits + 8) (pushBits 8 d.toNat b)).2) emptyBuffer

/-- What one character becomes under `TLCORR` (R126): its `corr` and its erasure bit, by code unit. -/
def TransliteratesTo (c out : CodeUnit) (erased : Bit) : Prop :=
  (c.toNat = 48 → out = 79 ∧ erased = false) ∧
  (c.toNat = 49 ∨ c.toNat = 108 ∨ c.toNat = 76 → out = 73 ∧ erased = false) ∧
  (c.toNat = 50 → out = 90 ∧ erased = false) ∧
  ((51 ≤ c.toNat ∧ c.toNat ≤ 57) ∨ (65 ≤ c.toNat ∧ c.toNat ≤ 90 ∧ c.toNat ≠ 76) ∨
      (97 ≤ c.toNat ∧ c.toNat ≤ 122 ∧ c.toNat ≠ 108) → out = c ∧ erased = false) ∧
  (c.toNat ≤ 47 ∨ (58 ≤ c.toNat ∧ c.toNat ≤ 64) ∨ (91 ≤ c.toNat ∧ c.toNat ≤ 96) ∨ 123 ≤ c.toNat →
      out = 65 ∧ erased = true)

/-- How many letters stand before index `i` of a run. -/
def lettersBefore (run : List CodeUnit) (i : Nat) : Nat := (run.take i).countP isAlpha

/-- The results of a `CAPENC` command by the rule (R136): the count, and each character of the run. -/
def CarriesBits (run : List CodeUnit) (val : List Bit) (min : Nat) (out : List CodeUnit) (count : Nat) :
    Prop :=
  count = Nat.min val.length (run.countP isAlpha) ∧ out.length = run.length ∧
  ∀ i c, run[i]? = some c →
    (count < min → out[i]? = some (toLower c)) ∧
    (min ≤ count → isAlpha c = false → out[i]? = some c) ∧
    (min ≤ count → isAlpha c = true → val[lettersBefore run i]? = some true →
      out[i]? = some (toUpper c)) ∧
    (min ≤ count → isAlpha c = true → val[lettersBefore run i]? ≠ some true →
      out[i]? = some (toLower c))

/-- Position `b` of the codeword is erased by the operands of `ERAMAP` (R161, R163): by a cap-parity
erasure, or by an erased character that overlaps byte `plen + b` of the full buffer. -/
def ErasedBy (cera : List Bit) (skip plen : Nat) (capera : List Bit) (kb b : Nat) : Prop :=
  (∃ g, capera[g]? = some true ∧ kb + g = b) ∨
  ∃ i, skip ≤ i ∧ cera[i]? = some true ∧ (5 * i / 8 = plen + b ∨ (5 * i + 4) / 8 = plen + b)

/-- The operand ports of a raw command with only those kept that its `op` names (R23). -/
def namedPorts (c : RawCmd) : Ports :=
  match c.op.toNat with
  | 0 => { data := c.ports.data }
  | 1 => { text := c.ports.text }
  | 2 => { text := c.ports.text }
  | 3 => { run := c.ports.run, val := c.ports.val, min := c.ports.min }
  | 4 => { run := c.ports.run, era := c.ports.era }
  | 5 => { res := c.ports.res }
  | 6 => { cera := c.ports.cera, skip := c.ports.skip, plen := c.ports.plen,
           capera := c.ports.capera, kb := c.ports.kb, cw := c.ports.cw }
  | _ => {}

/-! ### What a claim may assume of the Reed-Solomon primitive -/

/-- "of fixed length = configured parity count" (R176). -/
def ReedSolomon.ParityLength (rs : ReedSolomon) (cfg : Cfg) : Prop :=
  ∀ key, (rs.encode key).length = cfg.baseParityByteCount + cfg.capParityByteCount

/-- The checksum test accepts what the encoder produced (R176; the ground of programme P3). -/
def ReedSolomon.AcceptsCodewords (rs : ReedSolomon) : Prop :=
  ∀ key, rs.isCorrupted (key ++ rs.encode key) = false

/-- The named correction property of R177 (general knowledge there), for erasures among the cap-parity
bytes only: a codeword that differs from `key ++ RS.encode(key)` at most at erased cap-parity positions,
and is zero there, is repaired. Weaker than R177's property, which allows any positions, so a claim that
assumes it claims more. -/
def ReedSolomon.RepairsCapErasures (rs : ReedSolomon) (cfg : Cfg) : Prop :=
  ∀ (key w : List Byte) (erased : List Nat), key.length = cfg.keyByteCount →
    w.length = (key ++ rs.encode key).length →
    erased.Nodup → (∀ b ∈ erased, cfg.keyByteCount + cfg.baseParityByteCount ≤ b ∧ b < w.length) →
    (∀ b, b < w.length → b ∉ erased → w[b]? = (key ++ rs.encode key)[b]?) →
    (∀ b ∈ erased, w[b]? = some 0x00) →
    rs.correct w erased = some (key ++ rs.encode key)

/-- The named property of R177 (general knowledge there), for any set `E` of at most `B + P` positions, `E`
written as a list without repeats: a codeword that differs from `key ++ RS.encode(key)` at most at positions
in `E`, and is zero on `E`, is repaired. -/
def ReedSolomon.CorrectsErasures (rs : ReedSolomon) (cfg : Cfg) : Prop :=
  ∀ (key w : List Byte) (erased : List Nat), key.length = cfg.keyByteCount →
    w.length = (key ++ rs.encode key).length →
    erased.Nodup → (∀ b ∈ erased, b < w.length) →
    erased.length ≤ cfg.baseParityByteCount + cfg.capParityByteCount →
    (∀ b, b < w.length → b ∉ erased → w[b]? = (key ++ rs.encode key)[b]?) →
    (∀ b ∈ erased, w[b]? = some 0x00) →
    rs.correct w erased = some (key ++ rs.encode key)

/-- The positions outside the erasure set at which a received codeword is wrong: the undetected errors
(R187). -/
def wrongPositions (sent received : List Byte) (erased : List Nat) : List Nat :=
  (List.range received.length).filter fun b => !erased.contains b && received[b]? != sent[b]?

/-- The correction property with undetected errors too (spec/93_implementation_defined.md G2, general
knowledge there): `e` errors and `s` erasures, zero where erased, with `2e + s ≤ B + P`. It is what R191 (b)
is provable under; without errors it is R177's property. -/
def ReedSolomon.CorrectsErrorsAndErasures (rs : ReedSolomon) (cfg : Cfg) : Prop :=
  ∀ (key w : List Byte) (erased : List Nat), key.length = cfg.keyByteCount →
    w.length = (key ++ rs.encode key).length →
    erased.Nodup → (∀ b ∈ erased, b < w.length) →
    2 * (wrongPositions (key ++ rs.encode key) w erased).length + erased.length ≤
      cfg.baseParityByteCount + cfg.capParityByteCount →
    (∀ b ∈ erased, w[b]? = some 0x00) →
    rs.correct w erased = some (key ++ rs.encode key)

/-- The checksum test is a test of being a codeword: among the strings of the configured length it accepts
nothing but `key ++ RS.encode(key)`. R176 says "cheap checksum test" and no more; this reading of it is
general knowledge, as in programme P7 of spec/95_test_vectors.md (log entry 12). -/
def ReedSolomon.AcceptsOnlyCodewords (rs : ReedSolomon) (cfg : Cfg) : Prop :=
  ∀ w : List Byte, w.length = cfg.keyByteCount + cfg.baseParityByteCount + cfg.capParityByteCount →
    rs.isCorrupted w = false →
    ∃ key, key.length = cfg.keyByteCount ∧ w = key ++ rs.encode key

/-! ### What the receiving steps arrive at, for counting damage -/

/-- The cap-parity results of step DE3, segment by segment (R184). -/
def segmentResults (cfg : Cfg) (corr : List CodeUnit) (cera : List Bit) : List OptByte :=
  (List.range cfg.capParityByteCount).map fun k =>
    capdec (slice corr (segmentStart cfg k) cfg.capSegmentCharCount)
      (slice cera (segmentStart cfg k) cfg.capSegmentCharCount)

/-- The cap-parity results after step DE4, the casing-lost heuristic included (R184, R238). -/
def recoveredCap (cfg : Cfg) (id : List CodeUnit) : List OptByte :=
  capchk (segmentResults cfg (correctedText id) (charErasures id))

/-- The erasure set that a received string leads to (step DE8). -/
def receivedErasures (cfg : Cfg) (id : List CodeUnit) : List Bit :=
  erasureSet (charErasures id) cfg.prefixCap.length cfg.prefixBytes.length
    ((recoveredCap cfg id).map Option.isNone) (cfg.keyByteCount + cfg.baseParityByteCount)
    (cfg.keyByteCount + cfg.baseParityByteCount + cfg.capParityByteCount)

/-- The full buffer of step DE5 decodes to `full`, and `full` begins with the configured prefix: the string
reaches Reed-Solomon. No parity covers the prefix or the unused bits of the last character (R189 (b), (c)). -/
def ReachesCorrection (cfg : Cfg) (id : List CodeUnit) (full : List Byte) : Prop :=
  b32dec (canonicalText id) = .ok full ∧ slice full 0 cfg.prefixBytes.length = cfg.prefixBytes

/-- The zero-forced codeword that a received string with the full buffer `full` leads to (steps DE7, DE8). -/
def receivedCodeword (cfg : Cfg) (id : List CodeUnit) (full : List Byte) : List Byte :=
  zeroForce (receivedErasures cfg id) (assembleCodeword cfg full (recoveredCap cfg id))

/-- The "erasure/error count" of a received string against the codeword that was sent (R191 (b)): its erased
positions and its undetected wrong ones. -/
def damage (cfg : Cfg) (sent : List Byte) (id : List CodeUnit) (full : List Byte) : Nat :=
  erasureCount (receivedErasures cfg id) +
    (wrongPositions sent (receivedCodeword cfg id full)
      (erasedPositions (receivedErasures cfg id))).length

/-! ### How a string may come to the decoder changed -/

/-- A code unit that `TLCORR` can only mark as an erasure (R76). -/
def Unmappable (c : CodeUnit) : Prop :=
  c.toNat ≤ 47 ∨ (58 ≤ c.toNat ∧ c.toNat ≤ 64) ∨ (91 ≤ c.toNat ∧ c.toNat ≤ 96) ∨ 123 ≤ c.toNat

/-- `d` is `c`, or `c` with its case flipped, or a character confusable with `c` (R191 (b)): `0` for `O`;
`1`, `l` or `L` for `I`; `2` for `Z`. -/
def StandsFor (d c : CodeUnit) : Prop :=
  toUpper d = toUpper c ∨
  (toUpper c = 79 ∧ d = 48) ∨
  (toUpper c = 73 ∧ (d = 49 ∨ d = 108 ∨ d = 76)) ∨
  (toUpper c = 90 ∧ d = 50)

/-- The received string is the sent one but for cases flipped and characters confused (R191 (b)). -/
def CaseOrConfusables (sent received : List CodeUnit) : Prop :=
  received.length = sent.length ∧
  ∀ (i : Nat) (c d : CodeUnit), sent[i]? = some c → received[i]? = some d → StandsFor d c

/-- The received string is the sent one but for characters made unmappable, at any place where this does not
change the prefix bytes: behind them, or where the placeholder has the character's value (R189 (c)). There
are "no other induced errors" (R191 (e)). -/
def OnlyErased (cfg : Cfg) (sent received : List CodeUnit) : Prop :=
  received.length = sent.length ∧
  ∀ (i : Nat) (c d : CodeUnit), sent[i]? = some c → received[i]? = some d →
    d = c ∨ (Unmappable d ∧ (8 * cfg.prefixBytes.length ≤ 5 * i ∨ toUpper c = 65))

/-! ### The five properties of the composed codec (R191), of one key on one instance -/

/-- R191 (a): `decode(encode(key)) == key`. -/
def RoundTrips (rs : ReedSolomon) (key : List Byte) (s : State) : Prop :=
  ∃ (t : State) (id : List CodeUnit) (u : State),
    hcEncode rs key s = .next (t, .ok id) ∧ hcDecode rs id t = .next (u, .ok key)

/-- R191 (b), "for any encoded string with erasure/error count ≤ half total parity capacity": every string
of the right length whose prefix and Base32 tail survive decodes to the key, whatever its characters were
changed to, as long as its damage is within the budget. -/
def CorrectsWithinBudget (rs : ReedSolomon) (key : List Byte) (s : State) : Prop :=
  ∃ (t : State) (id : List CodeUnit), hcEncode rs key s = .next (t, .ok id) ∧
    ∀ (received : List CodeUnit) (full : List Byte), received.length = id.length →
      ReachesCorrection s.cfg received full →
      damage s.cfg (key ++ rs.encode key) received full ≤ erasureBudget s.cfg →
      ∃ u : State, hcDecode rs received t = .next (u, .ok key)

/-- R191 (b), "even after flipping case on any letters or substituting any confusable characters": such a
string, however many of its characters were changed, keeps its prefix and its tail, its damage is at most P,
and, where P is within the budget, it decodes to the key. -/
def ToleratesCaseAndConfusables (rs : ReedSolomon) (key : List Byte) (s : State) : Prop :=
  ∃ (t : State) (id : List CodeUnit), hcEncode rs key s = .next (t, .ok id) ∧
    ∀ received : List CodeUnit, CaseOrConfusables id received →
      ∃ full : List Byte, ReachesCorrection s.cfg received full ∧
        damage s.cfg (key ++ rs.encode key) received full ≤ s.cfg.capParityByteCount ∧
        (s.cfg.capParityByteCount ≤ erasureBudget s.cfg →
          ∃ u : State, hcDecode rs received t = .next (u, .ok key))

/-- R191 (c): `encode` always returns exactly M characters, `decode` and `is_corrupt` reject any other
length, `is_corrupt` by answering true. -/
def KeepsLengths (rs : ReedSolomon) (s : State) : Prop :=
  (∀ (key : List Byte) (t : State) (id : List CodeUnit), hcEncode rs key s = .next (t, .ok id) →
    id.length = s.cfg.encodedCharCount) ∧
  ∀ id : List CodeUnit, id.length ≠ s.cfg.encodedCharCount →
    (∃ t : State, hcDecode rs id s = .next (t, .error .badIdLen)) ∧
    ∃ t : State, hcIscorrupt rs id s = .next (t, .ok true)

/-- R191 (d): a string that is entirely lower-cased or entirely upper-cased decodes to the same key, and
`is_corrupt` reports true for it. -/
def ToleratesCasingLoss (rs : ReedSolomon) (key : List Byte) (s : State) : Prop :=
  ∃ (t : State) (id : List CodeUnit), hcEncode rs key s = .next (t, .ok id) ∧
    (∃ u : State, hcDecode rs (id.map toLower) t = .next (u, .ok key)) ∧
    (∃ u : State, hcDecode rs (id.map toUpper) t = .next (u, .ok key)) ∧
    (∃ u : State, hcIscorrupt rs (id.map toLower) t = .next (u, .ok true)) ∧
    ∃ u : State, hcIscorrupt rs (id.map toUpper) t = .next (u, .ok true)

/-- R191 (e): with no other induced errors, `floor((B + P)/2)` erasures or fewer decode to the key, and more
fail with `TooManyErrors`. -/
def HasErasureBoundary (rs : ReedSolomon) (key : List Byte) (s : State) : Prop :=
  ∃ (t : State) (id : List CodeUnit), hcEncode rs key s = .next (t, .ok id) ∧
    ∀ received : List CodeUnit, OnlyErased s.cfg id received →
      (erasureCount (receivedErasures s.cfg received) ≤ erasureBudget s.cfg →
        ∃ u : State, hcDecode rs received t = .next (u, .ok key)) ∧
      (erasureBudget s.cfg < erasureCount (receivedErasures s.cfg received) →
        ∃ u : State, hcDecode rs received t = .next (u, .error .tooManyErrors))

end Sys2Proof.Machine
end

