-- ==== Sys2Proof/Certificates/Slice0/Obligations.lean ====
section
/-! DEFINITION. The statements for the provers. A rule that the spec marks `[decision: …]` or
`[derived: …]` is named in a docstring only, and its statement has basis 'derived'. The premise
`wellFormed` is R84's: every operand length is at most `MAX_LEN` and the lengths agree; ill-shaped
commands are the subject of `IllShapedCommandsAreRefused`. -/

open Sys2Proof Sys2Proof.Machine

/-! ### Encoding, step, reset -/

/-- Decode and encode agree, both ways. Every well-formed command decodes, from the ports that present it,
to itself; a pseudo-operation to the `CAPENC` command it stands for (R87). And whatever the decoder
accepts is a well-formed operation, and presenting it again gives the same `op` and the same ports, less
those that the operation does not name (R23, R70, R71). That an unnamed port is not read is the model's
reading of R23 (log entry 10); the numbering of `op` is decision D2 of the spec. -/
def Obligations.DecodeAndEncodeAgree : Prop :=
  (∀ (cfg : Cfg) (i : Instr), (i.expand cfg).wellFormed →
    decode (encode cfg i) = .ok (i.expand cfg) ∧ (i.core = true → i.expand cfg = i)) ∧
  (∀ (cfg : Cfg) (c : RawCmd) (i : Instr), decode c = .ok i →
    i.core = true ∧ i.wellFormed ∧ (encode cfg i).op = c.op ∧ (encode cfg i).ports = namedPorts c)

/-- The operation selects of R71 and R82, with the operands of R23, read from written-out commands. -/
def Obligations.OperationSelectsDecode : Prop :=
  decode { op := 0b000, ports := { data := [0x01, 0xFF] } } = .ok (.b32enc [0x01, 0xFF]) ∧
  decode { op := 0b001, ports := { text := [0x41, 0x45] } } = .ok (.b32dec [0x41, 0x45]) ∧
  decode { op := 0b010, ports := { text := [0x30] } } = .ok (.tlcorr [0x30]) ∧
  decode { op := 0b011, ports := { run := [0x48], val := [true], min := 3 } } =
    .ok (.capenc [0x48] [true] 3) ∧
  decode { op := 0b100, ports := { run := [0x48], era := [false] } } =
    .ok (.capdec [0x48] [false]) ∧
  decode { op := 0b101, ports := { res := [some 0x24, none] } } = .ok (.capchk [some 0x24, none]) ∧
  decode { op := 0b110, ports := { cera := [true], skip := 1, plen := 2, capera := [false], kb := 3,
                                   cw := [0x0A, 0x0B, 0x0C, 0x0D] } } =
    .ok (.eramap [true] 1 2 [false] 3 [0x0A, 0x0B, 0x0C, 0x0D]) ∧
  decode { op := 0b111, ports := { data := [0x01] } } = .ok .illegal

/-- A step runs the decoded command: under a legal `CFG`, a presented command that decodes to `i` is
`exec i`. A block with no command presented computes nothing (the model's idle step, log entry 3; R218); the
ports of the command that ended before have no value any more (R20, R24; log entry 2). A presented command
under an illegal `CFG` is refused (R26, decision D20 of the spec), and so is an ill-shaped one, by the
decoder's name (R84). -/
def Obligations.StepRunsTheDecodedCommand : Prop :=
  (∀ (s : State) (c : RawCmd) (i : Instr), s.cmd = some c → s.cfg.legal = true →
    decode c = .ok i → step s = exec i s) ∧
  (∀ s : State, s.cmd = none → step s = .next { s with status := none, result := none }) ∧
  (∀ (s : State) (c : RawCmd), s.cmd = some c → s.cfg.legal = false →
    step s = .refused .illegalCfg) ∧
  (∀ (s : State) (c : RawCmd) (f : ShapeFault), s.cmd = some c → s.cfg.legal = true →
    decode c = .error f → step s = .refused (.illShaped f))

/-- Every step keeps the invariant: the `CFG` stays legal, and the status and the results fit each other
(`Results.wf`: R79, R104, R130, R136, R146, R164, R165, R200, R203). -/
def Obligations.EveryStepKeepsTheInvariant : Prop :=
  ∀ s t : State, Coherent s → step s = .next t → Coherent t

/-- The invariant holds right after reset, under the model's strap (log entry 5) and under every legal
`CFG` the host presents (R230, R232). -/
def Obligations.ResetMeetsTheInvariant : Prop :=
  Coherent State.reset ∧ ∀ cfg : Cfg, cfg.legal = true → Coherent (State.resetWith cfg)

/-- Reset, under any strap (R39, decisions D1, D19, D20 of the spec): the strap as presented, no command,
no status, no result; the block accepts a command at once, and its first command answers as any later one
would (R233). -/
def Obligations.ResetIsIdleAndReady : Prop :=
  ∀ cfg : Cfg, (State.resetWith cfg).cfg = cfg ∧ (State.resetWith cfg).cmd = none ∧
    (State.resetWith cfg).status = none ∧ (State.resetWith cfg).result = none ∧
    ∀ (i : Instr) (s t : State), s.cfg = cfg → exec i s = .next t →
      ∃ u, exec i (State.resetWith cfg) = .next u ∧ u.status = t.status ∧ u.result = t.result

/-- The constant tables: `ALPH` is `ABCDEFGHIJKMNOPQRSTUVWXYZ3456789` in this order (R72; the code units by
ASCII, log entry 14), `INV` inverts it (R74), 32 symbols and 40 slots (R30, R31), and the slots whose
characters are no symbol are `RESERVED`. The slot of `L` is decision D7 of the spec. -/
def Obligations.TablesInvertEachOther : Prop :=
  alph = ['A', 'B', 'C', 'D', 'E', 'F', 'G', 'H', 'I', 'J', 'K', 'M', 'N', 'O', 'P', 'Q', 'R', 'S', 'T',
    'U', 'V', 'W', 'X', 'Y', 'Z', '3', '4', '5', '6', '7', '8', '9'].map
      (fun c => BitVec.ofNat 8 c.toNat) ∧
  alph.length = 32 ∧ inv.length = 40 ∧
  (∀ v : Symbol, symbolOf (sym v) = .ok v ∧ alph[v.toNat]? = some (sym v)) ∧
  (∀ (c : CodeUnit) (v : Symbol), symbolOf c = .ok v → sym v = c) ∧
  (∀ c : CodeUnit, rejected c ↔ c ∉ alph) ∧
  (∀ c : CodeUnit, rejected c ↔ symbolOf c = .error .badInput)

/-! ### Frames: what every command leaves and what it may not change -/

/-- The frame of all ten instructions, whatever the state: no instruction writes `CFG` (R25), the command
port is empty again (R20), a status stands, and there is a data result exactly with `OK` (R203, U15). The
machine has no memory and no other register (R20, R50); the scratch registers are free values (R37, log
entry 4). -/
def Obligations.CommandFrame : Prop :=
  ∀ (i : Instr) (s t : State), exec i s = .next t →
    t.cfg = s.cfg ∧ t.cmd = none ∧ t.freeCount = s.freeCount + 1 ∧
    ∃ st, t.status = some st ∧ st.ofBlock = true ∧ (t.result.isSome = true ↔ st = .ok)

/-- No scratch state survives a command, whether it ended with `OK` or with an error (R37): what a command
answers depends on the command and on `CFG` alone, never on what the state holds from before it, and only
`CAPENC.PREFIX` reads `CFG` (R23, R87). A refusal is as independent. -/
def Obligations.NothingCarriesOver : Prop :=
  ∀ (i : Instr) (s t : State), (s.cfg = t.cfg ∨ ∀ run, i ≠ .capencPrefix run) →
    (∀ s', exec i s = .next s' →
      ∃ t', exec i t = .next t' ∧ t'.status = s'.status ∧ t'.result = s'.result) ∧
    (∀ r, exec i s = .refused r → exec i t = .refused r)

/-- Which operation can end with which status (R201, a derived rule): `B32DEC` is the only operation that
can fail on its data, `op = 7` ends with `IllegalOp`, the others with `OK`. -/
def Obligations.StatusesByOperation : Prop :=
  ∀ (i : Instr) (s t : State), exec i s = .next t →
    (i = .illegal ∧ t.status = some .illegalOp) ∨
    (i ≠ .illegal ∧ t.status = some .ok) ∨
    (∃ text, i = .b32dec text ∧
      (t.status = some .badInput ∨ t.status = some .unexpectedEof))

/-- The status codes of R200 (decision D4 of the spec) are injective, and the block's own are 0 to 3. -/
def Obligations.StatusCodesAreInjective : Prop :=
  (∀ a b : Status, a.code = b.code → a = b) ∧
  (∀ a : Status, a.ofBlock = true ↔
    a = .ok ∨ a = .badInput ∨ a = .unexpectedEof ∨ a = .illegalOp)

/-- An ill-shaped command is refused by the name of the check it fails, and no other command is refused
(R84, decisions D5, D29 of the spec; R205). -/
def Obligations.IllShapedCommandsAreRefused : Prop :=
  (∀ (i : Instr) (s : State) (f : ShapeFault),
    (i.expand s.cfg).shapeFault = some f ↔ exec i s = .refused (.illShaped f)) ∧
  (∀ (i : Instr) (s : State), (i.expand s.cfg).wellFormed ↔ ∃ t, exec i s = .next t)

/-- The shape checks by name (R84): `CAPDEC` with `len(era) != len(run)` and `ERAMAP` with
`kb + len(capera) > L` are refused. No length is above `MAX_LEN`, which the model takes infinite (log
entry 6), so these are the only ill-shaped commands. -/
def Obligations.ShapeChecksByName : Prop :=
  (∀ (run : List CodeUnit) (era : List Bit) (s : State), era.length ≠ run.length →
    exec (.capdec run era) s = .refused (.illShaped .eraLength)) ∧
  (∀ (cera : List Bit) (skip plen : Nat) (capera : List Bit) (kb : Nat) (cw : List Byte) (s : State),
    cw.length < kb + capera.length →
    exec (.eramap cera skip plen capera kb cw) s = .refused (.illShaped .capWindow)) ∧
  (∀ i : Instr, (∀ run era, i = .capdec run era → era.length = run.length) →
    (∀ cera skip plen capera kb cw, i = .eramap cera skip plen capera kb cw →
      kb + capera.length ≤ cw.length) → i.wellFormed)

/-! ### B32ENC -/

/-- `B32ENC` always ends with `OK` and writes no other flag (R103): it completes, with a text. -/
def Obligations.B32encAlwaysOk : Prop :=
  ∀ (data : List Byte) (s : State), (Instr.b32enc data).wellFormed →
    ∃ t text, exec (.b32enc data) s = .next t ∧ t.status = some .ok ∧
      t.result = some (.b32enc text)

/-- `B32ENC` whole (R101): it completes, and the text has `ceil(8n/5)` characters, character `i` being the
`ALPH` entry of stream bits `5i` to `5i + 4`, most significant first, the stream extended by zeros; nothing
else is a result. This form of what R101's loop emits is the spec's own (R102, a derived rule). -/
def Obligations.B32encClosedForm : Prop :=
  ∀ (data : List Byte) (s : State), (Instr.b32enc data).wellFormed →
    ∃ text, exec (.b32enc data) s = .next (complete (.b32enc text) s) ∧
      text.length = renderedLength data.length ∧
      ∀ i, i < text.length → text[i]? = alph[bitsToNat (fiveBits (bitstream data) i)]?

/-- The widths of R33 (decision D6 of the spec): between bytes at most 4 bits are buffered, just after a
byte at most 12, and the accumulator is below `2^nbits` at both points, so 12 bits suffice for `acc`. -/
def Obligations.TwelveBitsSuffice : Prop :=
  ∀ (data : List Byte) (d : Byte),
    (bufferAfter data).nbits ≤ 4 ∧ (bufferAfter data).acc < 2 ^ (bufferAfter data).nbits ∧
    (pushBits 8 d.toNat (bufferAfter data)).nbits ≤ 12 ∧
    (pushBits 8 d.toNat (bufferAfter data)).acc <
      2 ^ (pushBits 8 d.toNat (bufferAfter data)).nbits ∧
    ∀ rest, ∃ out, b32enc (data ++ rest) = out ++ b32encFrom (bufferAfter data) rest ∧
      out.length = (8 * data.length) / 5

/-- Corner cases of `B32ENC` (R104, derived): every character is a symbol; the last character of a 39-byte
buffer is `A`, `I`, `R` or `Z`; the operation is injective. -/
def Obligations.B32encCornerCases : Prop :=
  (∀ data : List Byte, ∀ c ∈ b32enc data, c ∈ alph) ∧
  (∀ data : List Byte, data.length = 39 →
    ∃ c, (b32enc data).getLast? = some c ∧ (c = 65 ∨ c = 73 ∨ c = 82 ∨ c = 90)) ∧
  (∀ d e : List Byte, b32enc d = b32enc e → d = e)

/-! ### B32DEC -/

/-- `B32DEC` whole (R111), its tail tests by R113: a character outside 51..90 or in a `RESERVED` slot
gives `BadInput`; otherwise five or more left-over bits, or a left-over bit that is 1, give
`UnexpectedEof`; otherwise it is `OK` and byte `j` is stream bits `8j` to `8j + 7`. On an error there is no
data result. -/
def Obligations.B32decClosedForm : Prop :=
  ∀ (text : List CodeUnit) (s : State), (Instr.b32dec text).wellFormed →
    ((∃ c ∈ text, rejected c) → exec (.b32dec text) s = .next (raise .badInput s)) ∧
    ((∀ c ∈ text, ¬ rejected c) →
      (5 ≤ 5 * text.length % 8 ∨ true ∈ leftOver text →
        exec (.b32dec text) s = .next (raise .unexpectedEof s)) ∧
      (5 * text.length % 8 < 5 → true ∉ leftOver text →
        ∃ data, exec (.b32dec text) s = .next (complete (.b32dec data) s) ∧
          data.length = 5 * text.length / 8 ∧
          ∀ j, j < data.length →
            data[j]? = some (byteOfBits (slice (symbolStream text) (8 * j) 8))))

/-- Text lengths with `m mod 8` in 1, 3, 6 never decode (R56, a derived rule). -/
def Obligations.UndecodableLengths : Prop :=
  ∀ (text : List CodeUnit) (s t : State), exec (.b32dec text) s = .next t →
    text.length % 8 = 1 ∨ text.length % 8 = 3 ∨ text.length % 8 = 6 →
    t.status = some .badInput ∨ t.status = some .unexpectedEof

/-- The first round-trip law (R116, a derived rule): `B32DEC(B32ENC(d)) = (d, OK)` for every byte sequence,
on the machine. -/
def Obligations.DecodeInvertsEncode : Prop :=
  ∀ (data : List Byte) (s : State), (Instr.b32dec (b32enc data)).wellFormed →
    exec (.b32dec (b32enc data)) s = .next (complete (.b32dec data) s)

/-- The second round-trip law (R116, a derived rule): every accepted text is canonical. -/
def Obligations.AcceptedTextsAreCanonical : Prop :=
  ∀ (text : List CodeUnit) (data : List Byte) (s t : State), (Instr.b32enc data).wellFormed →
    exec (.b32dec text) s = .next t → t.result = some (.b32dec data) →
    exec (.b32enc data) t = .next (complete (.b32enc text) t)

/-! ### TLCORR -/

/-- `TLCORR` always ends with `OK`: an unmappable character is not an error but an erasure (R129). It
completes, whatever the text, writes no other flag, and `cera` has one bit for each character, 1 exactly for
the unmappable ones (R76, R126; decision D3 of the spec and log entry 14 for the code units). -/
def Obligations.TlcorrAlwaysOk : Prop :=
  ∀ (text : List CodeUnit) (s : State), (Instr.tlcorr text).wellFormed →
    ∃ t corr canon cera, exec (.tlcorr text) s = .next t ∧ t.status = some .ok ∧
      t.result = some (.tlcorr corr canon cera) ∧ cera.length = text.length ∧
      ∀ (i : Nat) (c : CodeUnit), text[i]? = some c → (cera[i]? = some true ↔ Unmappable c)

/-- `TLCORR` character by character (R126; decisions D3, D8, D9 of the spec for the code units, the
substitutes and the two texts): the three results have the input's length, each character is corrected by
the rule, and `canon` is the corrected character in uppercase. -/
def Obligations.TlcorrByCharacter : Prop :=
  ∀ (text : List CodeUnit) (s : State), (Instr.tlcorr text).wellFormed →
    ∃ (corr canon : List CodeUnit) (cera : List Bit),
      exec (.tlcorr text) s = .next (complete (.tlcorr corr canon cera) s) ∧
      corr.length = text.length ∧ canon.length = text.length ∧ cera.length = text.length ∧
      ∀ (i : Nat) (c : CodeUnit), text[i]? = some c → ∃ (out : CodeUnit) (erased : Bit),
        corr[i]? = some out ∧ canon[i]? = some (toUpper out) ∧ cera[i]? = some erased ∧
          TransliteratesTo c out erased

/-- Properties of the results of `TLCORR` (R130, a derived rule): `canon` is over `ALPH`, so `B32DEC` of it
never ends with `BadInput`; and `TLCORR` of `corr` returns `corr`, `canon` and an all-zero bitmap. -/
def Obligations.CanonicalTextIsOverTheAlphabet : Prop :=
  ∀ (text corr canon : List CodeUnit) (cera : List Bit) (s t : State),
    exec (.tlcorr text) s = .next t → t.result = some (.tlcorr corr canon cera) →
    (∀ c ∈ canon, c ∈ alph) ∧
    (∀ u, exec (.b32dec canon) t = .next u → u.status ≠ some .badInput) ∧
    (∀ u, exec (.tlcorr corr) t = .next u →
      u.result = some (.tlcorr corr canon (List.replicate text.length false)))

/-! ### CAPENC and its pseudo-operations -/

/-- `CAPENC` and the two pseudo-operations complete with the results of R136 (decision D21 of the spec for
the length of `val`): `count` is the smaller of the number of bits and the number of letters; below `min`
the whole run is lowercase; otherwise the letter with `j` letters before it takes bit `j` in its case, a
letter after the last bit is lowercase, and other characters stay. `CAPENC.PREFIX` takes
`CFG.prefix_cap` and 3, `CAPENC.BYTE` the bits of the byte, most significant first, and 8 (R87, R138). -/
def Obligations.CapencCarriesTheBits : Prop :=
  (∀ (run : List CodeUnit) (val : List Bit) (min : Nat) (s : State),
    (Instr.capenc run val min).wellFormed →
    ∃ out count, exec (.capenc run val min) s = .next (complete (.capenc out count) s) ∧
      CarriesBits run val min out count) ∧
  (∀ (run : List CodeUnit) (s : State), (Instr.capenc run s.cfg.prefixCap 3).wellFormed →
    ∃ out count, exec (.capencPrefix run) s = .next (complete (.capenc out count) s) ∧
      CarriesBits run s.cfg.prefixCap 3 out count) ∧
  (∀ (run : List CodeUnit) (b : Byte) (s : State), (Instr.capenc run (bits8 b) 8).wellFormed →
    ∃ out count, exec (.capencByte run b) s = .next (complete (.capenc out count) s) ∧
      CarriesBits run ((List.range 8).map fun t => b.getMsbD t) 8 out count)

/-- The pseudo-operations of R87, each a `CAPENC` with operands fixed by the rule, in every state. -/
def Obligations.PseudoOperationsAreCapenc : Prop :=
  (∀ (run : List CodeUnit) (s : State),
    exec (.capencPrefix run) s = exec (.capenc run s.cfg.prefixCap 3) s) ∧
  (∀ (run : List CodeUnit) (b : Byte) (s : State),
    exec (.capencByte run b) s = exec (.capenc run (bits8 b) 8) s)

/-- The case-bit convention (R137), in both directions. Uppercase is 1 and lowercase 0; only letters carry
a bit; bits go to the letters of a run by increasing index, the first letter taking the first bit. Writing:
when the threshold is met, the case bits of the letters of `run_out` are the bits of `val` as far as there
are letters, then zeros (R136, decision D21 of the spec). Reading: what `CAPDEC` recovers is the case bits of
the first eight letters (R143, decision D13 of the spec). Both decisions are in log entry 15. -/
def Obligations.CaseBitConvention : Prop :=
  (∀ c : CodeUnit, (caseBit c = some true ↔ isUpper c = true) ∧
    (caseBit c = some false ↔ isLower c = true) ∧ (caseBit c = none ↔ isAlpha c = false)) ∧
  (∀ (run : List CodeUnit) (val : List Bit) (min : Nat), min ≤ (capenc run val min).2 →
    (capenc run val min).1.filterMap caseBit =
      val.take (run.countP isAlpha) ++
        List.replicate (run.countP isAlpha - val.length) false) ∧
  (∀ run : List CodeUnit, recoverBits 8 run = (run.filterMap caseBit).take 8)

/-- Casing never changes a character's value, and the input's own case never matters (R139 (a), a derived
rule). -/
def Obligations.CapencKeepsTheLetters : Prop :=
  ∀ (run : List CodeUnit) (val : List Bit) (min : Nat),
    (capenc run val min).1.map toUpper = run.map toUpper ∧
    capenc (run.map toUpper) val min = capenc run val min ∧
    capenc (run.map toLower) val min = capenc run val min

/-! ### CAPDEC -/

/-- `CAPDEC` (R141; decisions D12, D13 of the spec): with an erased character anywhere in the run the
result is `Erased`; so it is with fewer than eight letters; otherwise it is the byte whose bits, most
significant first, are the cases of the first eight letters, and later letters are ignored. -/
def Obligations.CapdecReadsTheCase : Prop :=
  ∀ (run : List CodeUnit) (era : List Bit) (s : State), (Instr.capdec run era).wellFormed →
    ∃ res, exec (.capdec run era) s = .next (complete (.capdec res) s) ∧
      (true ∈ era → res = none) ∧
      (run.countP isAlpha < 8 → res = none) ∧
      (true ∉ era → 8 ≤ run.countP isAlpha →
        ∃ b : Byte, res = some b ∧
          ∀ t, t < 8 → (run.filterMap caseBit)[t]? = some (b.getMsbD t))

/-- The law of R144 (d) (a derived rule) on the machine: what `CAPENC.BYTE` wrote into a run, `CAPDEC` reads
back from it, when at least eight letters carried a bit; otherwise it reports the byte erased. -/
def Obligations.CapdecReadsBackCapenc : Prop :=
  ∀ (run out : List CodeUnit) (b : Byte) (count : Nat) (s t : State),
    exec (.capencByte run b) s = .next t → t.result = some (.capenc out count) →
    (Instr.capdec out (List.replicate out.length false)).wellFormed →
    exec (.capdec out (List.replicate out.length false)) t =
      .next (complete (.capdec (if 8 ≤ count then some b else none)) t)

/-! ### CAPCHK -/

/-- `CAPCHK` (R146, R147; decision D14 of the spec for the range of the quantifier): the casing is lost when
every recovered byte is 00 or every recovered byte is FF, an `Erased` element constraining neither; then
every element becomes `Erased`, otherwise all stay. -/
def Obligations.CapchkHeuristic : Prop :=
  ∀ (res : List OptByte) (s : State), (Instr.capchk res).wellFormed →
    ∃ out lost, exec (.capchk res) s = .next (complete (.capchk out lost) s) ∧
      (lost = true ↔ (∀ b, some b ∈ res → b = 0x00) ∨ (∀ b, some b ∈ res → b = 0xFF)) ∧
      (lost = true → out = List.replicate res.length none) ∧
      (lost = false → out = res)

/-- The heuristic settles: `CAPCHK` of what `CAPCHK` answered changes nothing more (R146, R147; decision
D14 of the spec). -/
def Obligations.CapchkIsIdempotent : Prop :=
  ∀ (res out : List OptByte) (lost : Bit) (s t : State), exec (.capchk res) s = .next t →
    t.result = some (.capchk out lost) → (Instr.capchk out).wellFormed →
    exec (.capchk out) t = .next (complete (.capchk out lost) t)

/-! ### ERAMAP -/

/-- `ERAMAP` whole (R161 to R165; decisions D15, D16, D25 of the spec): position `b` of the codeword is
erased exactly when a cap-parity erasure or an erased character at `skip` or above marks it, positions
outside the codeword being dropped; erased bytes are 00 and the others stay; `count` is the number of erased
positions. -/
def Obligations.EramapClosedForm : Prop :=
  ∀ (cera : List Bit) (skip plen : Nat) (capera : List Bit) (kb : Nat) (cw : List Byte) (s : State),
    (Instr.eramap cera skip plen capera kb cw).wellFormed →
    ∃ bera cwOut count,
      exec (.eramap cera skip plen capera kb cw) s =
        .next (complete (.eramap bera cwOut count) s) ∧
      bera.length = cw.length ∧ cwOut.length = cw.length ∧
      (∀ b, b < cw.length → (bera[b]? = some true ↔ ErasedBy cera skip plen capera kb b)) ∧
      (∀ b, b < cw.length → ErasedBy cera skip plen capera kb b → cwOut[b]? = some 0x00) ∧
      (∀ b, b < cw.length → ¬ ErasedBy cera skip plen capera kb b → cwOut[b]? = cw[b]?) ∧
      count = ((List.range cw.length).filter fun b => bera[b]? == some true).length

/-- Corner cases for the source's configuration (R166, a derived rule): with `plen = skip = 3`, `kb = 36`,
`L = 40` and character `i` of 63 alone erased, characters 0 to 3 mark nothing, character 4 marks position
0, a character from 5 to 61 marks one position or two adjacent ones, two exactly when `5i mod 8 ≥ 4`, and
character 62 marks 35 and 36. -/
def Obligations.EramapSourceCorners : Prop :=
  ∀ i, i < 63 →
    erasedPositions (erasureSet ((List.replicate 63 false).set i true) 3 3
      (List.replicate 4 false) 36 40) =
      if i ≤ 3 then [] else if i = 4 then [0] else if i = 62 then [35, 36]
      else if 4 ≤ 5 * i % 8 then [5 * i / 8 - 3, 5 * i / 8 - 2] else [5 * i / 8 - 3]

/-! ### The reserved operation -/

/-- `op = 7` completes at once with `IllegalOp`, whatever the operand ports hold, and produces no data
result (R82, decision D2 of the spec). -/
def Obligations.ReservedOperation : Prop :=
  (∀ s : State, exec .illegal s = .next (raise .illegalOp s)) ∧
  (∀ (s : State) (p : Ports), s.cfg.legal = true →
    step (s.present { op := 7, ports := p }) = .next (raise .illegalOp s))

/-! ### The configuration -/

/-- The source's configuration (R6, R27) with any 3-byte prefix is legal (R25, R26; decision D20 of the
spec), its string has 63 characters, and its marker and its four segments tile that string exactly. -/
def Obligations.SourceConfigurationIsLegal : Prop :=
  ∀ p : List Byte, p.length = 3 →
    (Cfg.source p).legal = true ∧ (Cfg.source p).encodedCharCount = 63 ∧
    segmentStart (Cfg.source p) 0 = 3 ∧
    segmentStart (Cfg.source p) (Cfg.source p).capParityByteCount = (Cfg.source p).encodedCharCount

/-- A command presented on a legal instance, however many commands went before it in the run, ends in a
next state that is idle again, unless it is ill-shaped: the host may issue any well-formed command whenever
the block is idle (R192, decision D1 of the spec). A further step with nothing presented changes nothing but
that the ports of the ended command have no value any more: this clause is the model's idle step (R218, log
entry 3) and its reading of R20 and R24 (log entry 2). -/
def Obligations.EveryWellFormedCommandIsServed : Prop :=
  ∀ (cfg : Cfg) (i : Instr) (s : State), s.cfg = cfg → cfg.legal = true →
    (i.expand cfg).wellFormed →
    ∃ t, step (s.present (encode cfg i)) = .next t ∧ exec (i.expand cfg) s = .next t ∧
      t.cmd = none ∧ t.cfg = cfg ∧ step t = .next { t with status := none, result := none }

/-! ### The host's programmes (spec/45_host_pipeline.md) -/

/-- Length checks come first (R180 EN1, R184 DE1; R191 (c)): a key of another length than K gives
`BadDataLen`, a string of another length than M gives `BadIdLen` and counts as corrupt, and the block is
not touched. -/
def Obligations.LengthChecksComeFirst : Prop :=
  (∀ (rs : ReedSolomon) (key : List Byte) (s : State), key.length ≠ s.cfg.keyByteCount →
    hcEncode rs key s = .next (s, .error .badDataLen)) ∧
  (∀ (rs : ReedSolomon) (id : List CodeUnit) (s : State), id.length ≠ s.cfg.encodedCharCount →
    hcDecode rs id s = .next (s, .error .badIdLen) ∧
    hcIscorrupt rs id s = .next (s, .ok true))

/-- `HC.ENCODE` of a key of K bytes under a legal `CFG`, with a primitive whose parity has the configured
length (R176), completes with exactly M characters, and casing aside they are the Base32 rendering of
`prefix ++ key ++ base_parity`; `InternalGeneratedBadLen` cannot arise (R182, a derived rule). `MAX_LEN`
is infinite (log entry 6). -/
def Obligations.EncodeRendersTheKey : Prop :=
  ∀ (rs : ReedSolomon) (key : List Byte) (s : State), s.cfg.legal = true →
    rs.ParityLength s.cfg → key.length = s.cfg.keyByteCount →
    ∃ t id, hcEncode rs key s = .next (t, .ok id) ∧ t.cfg = s.cfg ∧
      id.length = s.cfg.encodedCharCount ∧
      id.map toUpper = b32enc (s.cfg.prefixBytes ++ key ++ baseParity s.cfg (rs.encode key))

/-- `HC.DECODE` under a legal `CFG` always ends, with a key or with one of five errors; `BadInput` is none
of them (R183, R189 (a), a derived rule). `HC.ISCORRUPT` always answers and never with an error (R190), and
answers true whenever `HC.DECODE` fails before its last step. `MAX_LEN` is infinite (log entry 6). -/
def Obligations.DecodeEndsAndNeverWithBadInput : Prop :=
  ∀ (rs : ReedSolomon) (id : List CodeUnit) (s : State), s.cfg.legal = true →
    (∃ t r, hcDecode rs id s = .next (t, r) ∧ t.cfg = s.cfg ∧
      ∀ e, r = .error e → e = .badIdLen ∨ e = .unexpectedEof ∨ e = .prefixMismatch ∨
        e = .tooManyErrors ∨ e = .uncorrectable) ∧
    (∃ t b, hcIscorrupt rs id s = .next (t, .ok b)) ∧
    (∀ t e, hcDecode rs id s = .next (t, .error e) → e ≠ .uncorrectable →
      hcIscorrupt rs id s = .next (t, .ok true))

/-- The erasure budget and the fast path (R187, R188): once steps DE1 to DE8 have given `count`, more than
`floor((B + P)/2)` erasures fail with `TooManyErrors`; with no erasure and no checksum mismatch the key is
the leading K bytes directly; otherwise `RS.correct` decides, on the zero-forced codeword and the erasure
set, its failure becoming `Uncorrectable`. -/
def Obligations.BudgetAndFastPath : Prop :=
  (∀ (rs : ReedSolomon) (id : List CodeUnit) (s t : State) (a : Analysis),
    hcAnalyse id s = .next (t, .ok a) →
      a.count ≤ (t.cfg.baseParityByteCount + t.cfg.capParityByteCount) / 2 ∧
      (a.count = 0 → rs.isCorrupted a.cw = false →
        hcDecode rs id s = .next (t, .ok (a.cw.take t.cfg.keyByteCount))) ∧
      (a.count ≠ 0 ∨ rs.isCorrupted a.cw = true →
        (∀ r, rs.correct a.cw (erasedPositions a.bera) = some r →
          hcDecode rs id s = .next (t, .ok (r.take t.cfg.keyByteCount))) ∧
        (rs.correct a.cw (erasedPositions a.bera) = none →
          hcDecode rs id s = .next (t, .error .uncorrectable)))) ∧
  (∀ (cfg : Cfg) (cera : List Bit) (res : List OptByte) (full : List Byte) (s t : State)
      (bera : List Bit) (cwOut : List Byte) (count : Nat),
    slice full 0 cfg.prefixBytes.length = cfg.prefixBytes →
    issue (.eramap cera cfg.prefixCap.length cfg.prefixBytes.length (res.map Option.isNone)
        (cfg.keyByteCount + cfg.baseParityByteCount) (assembleCodeword cfg full res)) s =
      .next (t, .ok (.eramap bera cwOut count)) →
    analyseCodeword cfg cera res full s =
      if (cfg.baseParityByteCount + cfg.capParityByteCount) / 2 < count
      then .next (t, .error .tooManyErrors)
      else .next (t, .ok { cw := cwOut, bera := bera, count := count }))

/-- Round trip (R191 (a)) in the source's configuration, for every kind's 3-byte prefix, every 32-byte key
and every primitive that has the parity length and the checksum test of R176 and repairs erased cap-parity
bytes (R177, general knowledge there): `decode(encode(key)) == key`. `MAX_LEN` is infinite (log entry 6). -/
def Obligations.EncodedKeysDecode : Prop :=
  ∀ (rs : ReedSolomon) (p key : List Byte) (s : State), p.length = 3 → s.cfg = Cfg.source p →
    rs.ParityLength s.cfg → rs.AcceptsCodewords → rs.RepairsCapErasures s.cfg → key.length = 32 →
    RoundTrips rs key s

/-- The casing-loss property (R191 (d)) in the source's configuration, under the same assumptions on the
primitive: an encoded string that is entirely lower-cased or entirely upper-cased decodes to the same key,
and `is_corrupt` reports true for it. `MAX_LEN` is infinite (log entry 6). -/
def Obligations.CasingLossIsTolerated : Prop :=
  ∀ (rs : ReedSolomon) (p key : List Byte) (s : State), p.length = 3 → s.cfg = Cfg.source p →
    rs.ParityLength s.cfg → rs.AcceptsCodewords → rs.RepairsCapErasures s.cfg → key.length = 32 →
    ToleratesCasingLoss rs key s

/-- The result ports carry a value for one command only (R20, decision D1 of the spec; R24, a derived rule):
the state after a step has a status exactly when the step performed a command, and a result only then;
presenting the next command takes both away, and so does a step with nothing presented. That the ports stand
in the state in which the command has just ended is the model's reading (log entries 2, 3). -/
def Obligations.ResultPortsLastOneCommand : Prop :=
  (∀ s t : State, step s = .next t →
    t.cmd = none ∧ (t.status.isSome = true ↔ s.cmd.isSome = true) ∧
      (t.result.isSome = true → s.cmd.isSome = true)) ∧
  (∀ (c : RawCmd) (s : State), (s.present c).status = none ∧ (s.present c).result = none) ∧
  (∀ s : State, s.cmd = none →
    ∃ t, step s = .next t ∧ t.status = none ∧ t.result = none ∧ t.cfg = s.cfg)

/-- The length invariants (R191 (c)), of every instance and every primitive: what `HC.ENCODE` returns has
exactly M characters; of any other length, `HC.DECODE` gives `BadIdLen` and `HC.ISCORRUPT` true. -/
def Obligations.LengthInvariants : Prop :=
  ∀ (rs : ReedSolomon) (s : State), KeepsLengths rs s

/-- Idempotent correction (R191 (b)), under every legal `CFG`: a string that keeps its prefix bytes and its
Base32 tail, with at most half the parity capacity of erasures and undetected errors together, decodes to the
key, whatever its characters were changed to. The primitive is assumed to correct errors and erasures within
its capacity (spec/93_implementation_defined.md G2, general knowledge there; without errors it is R177) and
to accept nothing but codewords in its checksum test (the model's reading of R176, log entry 12). `MAX_LEN` is infinite (log
entry 6). -/
def Obligations.DamageWithinBudgetIsCorrected : Prop :=
  ∀ (rs : ReedSolomon) (key : List Byte) (s : State), s.cfg.legal = true → rs.ParityLength s.cfg →
    rs.CorrectsErrorsAndErasures s.cfg → rs.AcceptsOnlyCodewords s.cfg →
    key.length = s.cfg.keyByteCount → CorrectsWithinBudget rs key s

/-- Flipped cases and confusable characters (R191 (b)), under every legal `CFG`: anywhere in the string and
however many, they keep the prefix and the tail and damage at most the P cap-parity bytes, so that the string
decodes to the key wherever P is within the budget, as in the source's configuration. The primitive is
assumed to correct errors and erasures within its capacity (G2; log entry 12). `MAX_LEN` is infinite (log
entry 6). -/
def Obligations.CaseAndConfusablesAreTolerated : Prop :=
  (∀ (rs : ReedSolomon) (key : List Byte) (s : State), s.cfg.legal = true → rs.ParityLength s.cfg →
    rs.CorrectsErrorsAndErasures s.cfg → key.length = s.cfg.keyByteCount →
    ToleratesCaseAndConfusables rs key s) ∧
  ∀ p : List Byte, (Cfg.source p).capParityByteCount ≤ erasureBudget (Cfg.source p)

/-- The `TooManyErrors` boundary (R191 (e)) in the source's configuration: an encoded string with nothing but
erased characters, none of them changing a prefix byte, decodes to the key when at most
`floor((B + P)/2)` byte positions are erased, and fails with `TooManyErrors` when there are more. The
primitive is assumed to have R177's property (general knowledge there). `MAX_LEN` is infinite (log
entry 6). -/
def Obligations.ErasureBoundary : Prop :=
  ∀ (rs : ReedSolomon) (p key : List Byte) (s : State), p.length = 3 → s.cfg = Cfg.source p →
    rs.ParityLength s.cfg → rs.CorrectsErasures s.cfg → key.length = 32 →
    HasErasureBoundary rs key s
end

