-- ==== Sys2Proof/Laws/Bits.lean ====
section
/-! SUPPORT. Numbers as bit lists, most significant bit first (spec/00_scope.md rules R8, R9): the view in
which the accumulator arithmetic of `B32ENC` and `B32DEC` is concatenation and cutting. -/

namespace Sys2Proof.Machine

/-- The `n` low bits of a number, most significant first. -/
def natBits (n a : Nat) : List Bit := (List.range n).map fun t => a.testBit (n - 1 - t)

@[simp] theorem natBits_length (n a : Nat) : (natBits n a).length = n := by simp [natBits]

@[simp] theorem natBits_zero (a : Nat) : natBits 0 a = [] := rfl

theorem natBits_getElem? {n a t : Nat} (h : t < n) : (natBits n a)[t]? = some (a.testBit (n - 1 - t)) := by
  simp [natBits, h]

theorem natBits_succ (n a : Nat) : natBits (n + 1) a = natBits n (a / 2) ++ [a.testBit 0] := by
  apply List.ext_getElem? ; intro t
  rcases lt_trichotomy t n with h | h | h
  · rw [natBits_getElem? (by omega), List.getElem?_append_left (by simpa), natBits_getElem? h]
    congr 1
    rw [← Nat.testBit_succ]
    congr 1
    omega
  · subst h
    rw [natBits_getElem? (by omega), List.getElem?_append_right (by simp)]
    simp
  · rw [List.getElem?_eq_none (by simp; omega), List.getElem?_eq_none (by simp; omega)]

/-- Bits pushed below are bits appended. -/
theorem natBits_append {k v : Nat} (n a : Nat) (hv : v < 2 ^ k) :
    natBits (n + k) (a * 2 ^ k + v) = natBits n a ++ natBits k v := by
  induction k generalizing v with
  | zero => simp at hv; simp [hv]
  | succ k ih =>
    have h2 : v / 2 < 2 ^ k := by rw [pow_succ] at hv; omega
    have hdiv : (a * 2 ^ (k + 1) + v) / 2 = a * 2 ^ k + v / 2 := by
      rw [pow_succ, ← mul_assoc]; omega
    have hbit : (a * 2 ^ (k + 1) + v).testBit 0 = v.testBit 0 := by
      simp only [Nat.testBit_zero]; rw [pow_succ, ← mul_assoc]
      congr 1; rw [eq_iff_iff]; constructor <;> intro h <;> omega
    rw [← Nat.add_assoc, natBits_succ, natBits_succ, hdiv, ih h2, hbit, List.append_assoc]

/-- The low bits of a number are those of its remainder. -/
theorem natBits_mod (n a : Nat) : natBits n (a % 2 ^ n) = natBits n a := by
  apply List.ext_getElem? ; intro t
  by_cases h : t < n
  · rw [natBits_getElem? h, natBits_getElem? h, Nat.testBit_mod_two_pow]
    simp; omega
  · simp [natBits, h]

theorem bitsToNat_append_single (l : List Bit) (b : Bit) :
    bitsToNat (l ++ [b]) = 2 * bitsToNat l + b.toNat := by
  simp [bitsToNat]

theorem bitsToNat_natBits (n a : Nat) : bitsToNat (natBits n a) = a % 2 ^ n := by
  induction n generalizing a with
  | zero => simp [bitsToNat, Nat.mod_one]
  | succ n ih =>
    rw [natBits_succ, bitsToNat_append_single, ih, Nat.testBit_zero, pow_succ, mul_comm (2 ^ n) 2,
      Nat.mod_mul]
    rcases Nat.mod_two_eq_zero_or_one a with h | h <;> simp [h]; omega

theorem symbolBits_ofNat (x : Nat) : symbolBits (BitVec.ofNat 5 x) = natBits 5 x := by
  simp only [symbolBits, natBits, BitVec.getLsbD_ofNat]; rfl

theorem bits8_ofNat (x : Nat) : bits8 (BitVec.ofNat 8 x) = natBits 8 x := by
  simp only [bits8, natBits, BitVec.getLsbD_ofNat]; rfl

theorem symbolBits_eq (v : Symbol) : symbolBits v = natBits 5 v.toNat := by
  rw [← symbolBits_ofNat]; simp

theorem bits8_eq (b : Byte) : bits8 b = natBits 8 b.toNat := by
  rw [← bits8_ofNat]; simp

@[simp] theorem bits8_length (b : Byte) : (bits8 b).length = 8 := rfl

@[simp] theorem symbolBits_length (v : Symbol) : (symbolBits v).length = 5 := rfl

theorem byteOfBits_bits8 (b : Byte) : byteOfBits (bits8 b) = b := by
  rw [byteOfBits, bits8_eq, bitsToNat_natBits, Nat.mod_eq_of_lt b.isLt, BitVec.ofNat_toNat]
  simp

theorem bits8_injective {a b : Byte} (h : bits8 a = bits8 b) : a = b := by
  rw [← byteOfBits_bits8 a, h, byteOfBits_bits8]

theorem ofNat_bitsToNat_symbolBits (v : Symbol) : BitVec.ofNat 5 (bitsToNat (symbolBits v)) = v := by
  rw [symbolBits_eq, bitsToNat_natBits, Nat.mod_eq_of_lt v.isLt, BitVec.ofNat_toNat]
  simp

theorem symbolBits_injective {a b : Symbol} (h : symbolBits a = symbolBits b) : a = b := by
  rw [← ofNat_bitsToNat_symbolBits a, h, ofNat_bitsToNat_symbolBits]

/-! ### Streams -/

@[simp] theorem bitstream_nil : bitstream [] = [] := rfl

@[simp] theorem bitstream_cons (d : Byte) (ds : List Byte) :
    bitstream (d :: ds) = bits8 d ++ bitstream ds := rfl

@[simp] theorem bitstream_length (d : List Byte) : (bitstream d).length = 8 * d.length := by
  induction d with
  | nil => rfl
  | cons d ds ih => simp [ih]; omega

theorem bitstream_injective : ∀ {d e : List Byte}, bitstream d = bitstream e → d = e
  | [], [], _ => rfl
  | [], _ :: _, h => by have := congrArg List.length h; simp at this; omega
  | _ :: _, [], h => by have := congrArg List.length h; simp at this
  | a :: as, b :: bs, h => by
    simp only [bitstream_cons] at h
    obtain ⟨h1, h2⟩ := List.append_inj h (by simp)
    rw [bits8_injective h1, bitstream_injective h2]

/-- Byte `j` of a sequence is bits `8j` to `8j + 7` of its stream. -/
theorem getElem?_eq_slice_bitstream : ∀ {d : List Byte} {j : Nat}, j < d.length →
    d[j]? = some (byteOfBits (slice (bitstream d) (8 * j) 8))
  | d :: ds, 0, _ => by
    rw [slice, bitstream_cons, Nat.mul_zero, List.drop_zero, List.take_append_of_le_length (by simp)]
    rw [List.take_of_length_le (by simp), byteOfBits_bits8, List.getElem?_cons_zero]
  | d :: ds, j + 1, h => by
    have hj : j < ds.length := by simpa using h
    rw [List.getElem?_cons_succ, getElem?_eq_slice_bitstream hj]
    rfl

/-! ### The bit buffer -/

/-- The buffered bits, oldest first (R101). -/
def bufferBits (b : BitBuffer) : List Bit := natBits b.nbits b.acc

@[simp] theorem bufferBits_length (b : BitBuffer) : (bufferBits b).length = b.nbits := by
  simp [bufferBits]

@[simp] theorem bufferBits_empty : bufferBits emptyBuffer = [] := rfl

theorem bufferBits_push {k v : Nat} (b : BitBuffer) (hv : v < 2 ^ k) :
    bufferBits (pushBits k v b) = bufferBits b ++ natBits k v :=
  natBits_append _ _ hv

theorem bufferBits_cut {k : Nat} {b : BitBuffer} (h : k ≤ b.nbits) :
    natBits k (topBits k b) ++ bufferBits (dropBits k b) = bufferBits b := by
  have hlt : b.acc % 2 ^ (b.nbits - k) < 2 ^ (b.nbits - k) := Nat.mod_lt _ (by positivity)
  simp only [bufferBits, dropBits, topBits, natBits_mod]
  rw [← natBits_mod (b.nbits - k) b.acc, ← natBits_append _ _ hlt]
  congr 1
  · omega
  · rw [mul_comm]; exact Nat.div_add_mod _ _

theorem pushBits_acc_lt {k v : Nat} {b : BitBuffer} (h : b.acc < 2 ^ b.nbits) (hv : v < 2 ^ k) :
    (pushBits k v b).acc < 2 ^ (pushBits k v b).nbits := by
  simp only [pushBits, pow_add]
  nlinarith [Nat.mul_le_mul_right (2 ^ k) (Nat.succ_le_of_lt h)]

theorem dropBits_acc_lt (k : Nat) (b : BitBuffer) :
    (dropBits k b).acc < 2 ^ (dropBits k b).nbits :=
  Nat.mod_lt _ (by positivity)

/-- An accumulator without a 1 among its buffered bits is 0. -/
theorem acc_eq_zero_iff {b : BitBuffer} (h : b.acc < 2 ^ b.nbits) :
    b.acc = 0 ↔ true ∉ bufferBits b := by
  constructor
  · intro h0; simp [bufferBits, natBits, h0]
  · intro hb
    apply Nat.eq_of_testBit_eq
    intro t
    rw [Nat.zero_testBit]
    by_cases ht : t < b.nbits
    · by_contra hne
      apply hb
      rw [bufferBits, List.mem_iff_getElem?]
      refine ⟨b.nbits - 1 - t, ?_⟩
      rw [natBits_getElem? (by omega), show b.nbits - 1 - (b.nbits - 1 - t) = t by omega]
      simpa using hne
    · exact Nat.testBit_lt_two_pow (lt_of_lt_of_le h (Nat.pow_le_pow_right (by omega) (by omega)))

end Sys2Proof.Machine
end

