-- ==== Sys2Proof/Laws/Base32.lean ====
section
/-! SUPPORT. What the loops of `B32ENC` and `B32DEC` do, said once in bit streams (spec/40_base32_encoder.md
rule R101, spec/41_base32_decoder.md rule R111). -/

namespace Sys2Proof.Machine

/-! ### Symbols and characters -/

theorem symbolOf_sym (v : Symbol) : symbolOf (sym v) = .ok v := by
  revert v; decide +kernel

theorem sym_mem_alph (v : Symbol) : sym v ∈ alph := by
  revert v; decide +kernel

/-- The only error of the character tests (R112). -/
theorem symbolOf_error {c : CodeUnit} {e : Status} (h : symbolOf c = .error e) : e = .badInput := by
  unfold symbolOf at h
  split at h
  · cases h; rfl
  · split at h <;> cases h; rfl

/-- A character that passes the tests is the symbol of its value. -/
theorem eq_sym_of_symbolOf {c : CodeUnit} {v : Symbol} (h : symbolOf c = .ok v) : c = sym v := by
  have key : ∀ c : CodeUnit, (match symbolOf c with | .ok v => decide (c = sym v) | .error _ => true) = true := by
    decide +kernel
  have := key c
  rw [h] at this
  simpa using this

@[simp] theorem symbolStream_nil : symbolStream [] = [] := rfl

@[simp] theorem symbolStream_sym_cons (v : Symbol) (t : List CodeUnit) :
    symbolStream (sym v :: t) = symbolBits v ++ symbolStream t := by
  simp [symbolStream, symbolOf_sym]

@[simp] theorem symbolStream_append (s t : List CodeUnit) :
    symbolStream (s ++ t) = symbolStream s ++ symbolStream t := by
  simp [symbolStream]

/-! ### B32ENC -/

/-- All that the inner loop of `B32ENC` does: it moves whole symbols from the buffer into the text, until
at most four bits are left. -/
theorem emitSymbols_spec (rounds : Nat) (b : BitBuffer) (hr : b.nbits ≤ 5 * rounds + 4)
    (ha : b.acc < 2 ^ b.nbits) :
    symbolStream (emitSymbols rounds b).1 ++ bufferBits (emitSymbols rounds b).2 = bufferBits b ∧
    (emitSymbols rounds b).2.nbits ≤ 4 ∧
    (emitSymbols rounds b).2.acc < 2 ^ (emitSymbols rounds b).2.nbits ∧
    5 * (emitSymbols rounds b).1.length + (emitSymbols rounds b).2.nbits = b.nbits ∧
    ∀ c ∈ (emitSymbols rounds b).1, ∃ v, c = sym v := by
  induction rounds generalizing b with
  | zero => exact ⟨rfl, by simpa [emitSymbols] using hr, ha, by simp [emitSymbols], by simp [emitSymbols]⟩
  | succ n ih =>
    unfold emitSymbols
    split
    · next h5 =>
      obtain ⟨h1, h2, h3, h4, h6⟩ := ih (dropBits 5 b) (by simp only [dropBits]; omega) (dropBits_acc_lt 5 b)
      refine ⟨?_, h2, h3, ?_, ?_⟩
      · rw [symbolStream_sym_cons, symbolBits_ofNat, List.append_assoc, h1, bufferBits_cut h5]
      · simp only [List.length_cons]
        have : (dropBits 5 b).nbits = b.nbits - 5 := rfl
        omega
      · intro c hc
        rcases List.mem_cons.1 hc with rfl | hc
        · exact ⟨_, rfl⟩
        · exact h6 c hc
    · next h5 => exact ⟨rfl, by show b.nbits ≤ 4; omega, ha, by simp, by simp⟩

/-- All that `B32ENC` does from a buffer of at most four bits on: the stream of the text is the buffered
bits, then the bits of the bytes, then at most four zeros; every character is a symbol. -/
theorem b32encFrom_spec (b : BitBuffer) (data : List Byte) (hn : b.nbits ≤ 4)
    (ha : b.acc < 2 ^ b.nbits) :
    ∃ pad, pad ≤ 4 ∧
      symbolStream (b32encFrom b data) =
        bufferBits b ++ bitstream data ++ List.replicate pad false ∧
      5 * (b32encFrom b data).length = b.nbits + 8 * data.length + pad ∧
      ∀ c ∈ b32encFrom b data, ∃ v, c = sym v := by
  induction data generalizing b with
  | nil =>
    unfold b32encFrom
    split
    · next h0 =>
      refine ⟨5 - b.nbits, by omega, ?_, by simp; omega, by simp⟩
      rw [symbolStream_sym_cons, symbolBits_ofNat]
      have hz : natBits (5 - b.nbits) 0 = List.replicate (5 - b.nbits) false := by
        simp [natBits, List.map_const']
      have := natBits_append (k := 5 - b.nbits) (v := 0) b.nbits b.acc (by positivity)
      rw [show b.nbits + (5 - b.nbits) = 5 by omega, Nat.add_zero] at this
      simp [this, hz, bufferBits]
    · next h0 =>
      have h0 : b.nbits = 0 := by omega
      exact ⟨0, by omega, by simp [bufferBits, h0], by simp [h0], by simp⟩
  | cons d ds ih =>
    have hd : d.toNat < 2 ^ 8 := d.isLt
    obtain ⟨h1, h2, h3, h4, h5⟩ := emitSymbols_spec (b.nbits + 8) (pushBits 8 d.toNat b)
      (by simp only [pushBits]; omega) (pushBits_acc_lt ha hd)
    obtain ⟨pad, hp, hs, hl, hc⟩ := ih _ h2 h3
    refine ⟨pad, hp, ?_, ?_, ?_⟩
    · unfold b32encFrom
      rw [symbolStream_append, hs, ← List.append_assoc, ← List.append_assoc, h1, bufferBits_push b hd,
        bitstream_cons, bits8_eq]
      simp
    · unfold b32encFrom
      have : (pushBits 8 d.toNat b).nbits = b.nbits + 8 := rfl
      simp only [List.length_append, List.length_cons]
      omega
    · unfold b32encFrom
      intro c hcm
      rcases List.mem_append.1 hcm with h | h
      · exact h5 c h
      · exact hc c h

/-! ### B32DEC -/

/-- All that `emitByte` does: it moves a whole byte out of the buffer when there is one. -/
theorem emitByte_spec (b : BitBuffer) (hn : b.nbits ≤ 15) (ha : b.acc < 2 ^ b.nbits) :
    bitstream (emitByte b).1 ++ bufferBits (emitByte b).2 = bufferBits b ∧
    (emitByte b).2.nbits ≤ 7 ∧ (emitByte b).2.acc < 2 ^ (emitByte b).2.nbits := by
  unfold emitByte
  split
  · next h8 =>
    refine ⟨?_, by simp only [dropBits]; omega, dropBits_acc_lt 8 b⟩
    simp [bits8_ofNat, bufferBits_cut h8]
  · next h8 => exact ⟨rfl, by show b.nbits ≤ 7; omega, ha⟩

/-- The tail tests (R113) in bits: fewer than five left over, and none of them 1. -/
theorem tailOk_iff {b : BitBuffer} (hn : b.nbits ≤ 7) (ha : b.acc < 2 ^ b.nbits) :
    tailOk b = true ↔ b.nbits < 5 ∧ true ∉ bufferBits b := by
  unfold tailOk
  split
  · next h => simp; omega
  · next h =>
    rw [← acc_eq_zero_iff ha, decide_eq_true_iff]
    have hle : b.acc * 2 ^ (8 - b.nbits) < 2 ^ 8 := by
      calc b.acc * 2 ^ (8 - b.nbits) < 2 ^ b.nbits * 2 ^ (8 - b.nbits) :=
            Nat.mul_lt_mul_of_pos_right ha (by positivity)
        _ = 2 ^ 8 := by rw [← pow_add]; congr 1; omega
    rw [Nat.mod_eq_of_lt hle]
    simp only [mul_eq_zero, pow_eq_zero_iff', OfNat.ofNat_ne_zero, false_and, or_false]
    omega

/-- A rejected character anywhere gives `BadInput`, whatever the tail (R112, R209). -/
theorem b32decFrom_badInput {text : List CodeUnit} {c : CodeUnit} {e : Status} (b : BitBuffer)
    (hc : c ∈ text) (he : symbolOf c = .error e) : b32decFrom b text = .error .badInput := by
  induction text generalizing b with
  | nil => simp at hc
  | cons d ds ih =>
    unfold b32decFrom
    split
    · next e' h' => rw [symbolOf_error h']
    · next v hv =>
      have hd : c ∈ ds := by
        rcases List.mem_cons.1 hc with rfl | h
        · rw [he] at hv; cases hv
        · exact h
      simp only [ih _ hd]

/-- All that `B32DEC` does, from a buffer of at most seven bits on, with a text of symbols: it cuts the
stream into bytes; the tail decides whether it is accepted. -/
theorem b32decFrom_spec (b : BitBuffer) (text : List CodeUnit) (hn : b.nbits ≤ 7)
    (ha : b.acc < 2 ^ b.nbits) (hv : ∀ c ∈ text, ∃ v, c = sym v) :
    ∃ (data : List Byte) (rest : List Bit),
      bufferBits b ++ symbolStream text = bitstream data ++ rest ∧ rest.length ≤ 7 ∧
      b32decFrom b text =
        if rest.length < 5 ∧ true ∉ rest then .ok data else .error .unexpectedEof := by
  induction text generalizing b with
  | nil =>
    refine ⟨[], bufferBits b, by simp, by simpa using hn, ?_⟩
    unfold b32decFrom
    simp only [tailOk_iff hn ha, bufferBits_length]
  | cons c cs ih =>
    obtain ⟨v, rfl⟩ := hv c (by simp)
    have hvl : v.toNat < 2 ^ 5 := v.isLt
    obtain ⟨h1, h2, h3⟩ := emitByte_spec (pushBits 5 v.toNat b)
      (by simp only [pushBits]; omega) (pushBits_acc_lt ha hvl)
    obtain ⟨data, rest, hs, hr, hd⟩ := ih (emitByte (pushBits 5 v.toNat b)).2 h2 h3
      (fun c hc => hv c (by simp [hc]))
    refine ⟨(emitByte (pushBits 5 v.toNat b)).1 ++ data, rest, ?_, hr, ?_⟩
    · rw [symbolStream_sym_cons, symbolBits_eq, ← List.append_assoc, ← bufferBits_push b hvl, ← h1,
        List.append_assoc, hs]
      simp [bitstream]
    · unfold b32decFrom
      simp only [symbolOf_sym, hd]
      split_ifs <;> rfl

/-- The only errors of `B32DEC` (R201). -/
theorem b32decFrom_error {b : BitBuffer} {text : List CodeUnit} {e : Status}
    (h : b32decFrom b text = .error e) : e = .badInput ∨ e = .unexpectedEof := by
  induction text generalizing b with
  | nil =>
    unfold b32decFrom at h
    split at h
    · cases h
    · cases h; exact .inr rfl
  | cons c cs ih =>
    unfold b32decFrom at h
    split at h
    · next he => cases h; exact .inl (symbolOf_error he)
    · next v hv =>
      simp only [] at h
      split at h
      · next h2 => cases h; exact ih h2
      · cases h

theorem symbolStream_length {text : List CodeUnit} (hv : ∀ c ∈ text, ∃ v, c = sym v) :
    (symbolStream text).length = 5 * text.length := by
  induction text with
  | nil => rfl
  | cons c cs ih =>
    obtain ⟨v, rfl⟩ := hv c (by simp)
    rw [symbolStream_sym_cons, List.length_append, ih fun c hc => hv c (by simp [hc])]
    simp; omega

/-- What `B32DEC` accepts is a text of symbols, its bytes are the whole bytes of its stream, and what is left
over is less than a symbol of zeros (R111, R113). -/
theorem b32dec_ok {text : List CodeUnit} {data : List Byte} (h : b32dec text = .ok data) :
    (∀ c ∈ text, ∃ v, c = sym v) ∧ data.length = 5 * text.length / 8 ∧
      ∃ pad, pad ≤ 4 ∧ symbolStream text = bitstream data ++ List.replicate pad false := by
  have hv : ∀ c ∈ text, ∃ v, c = sym v := by
    intro c hc
    cases hs : symbolOf c with
    | error e => rw [b32dec, b32decFrom_badInput _ hc hs] at h; cases h
    | ok v => exact ⟨v, eq_sym_of_symbolOf hs⟩
  obtain ⟨data', rest, h1, h2, h3⟩ := b32decFrom_spec emptyBuffer text (by decide) (by decide) hv
  rw [b32dec, h3] at h
  split at h
  · next ht =>
    cases h
    rw [bufferBits_empty, List.nil_append] at h1
    have hl := congrArg List.length h1
    rw [symbolStream_length hv, List.length_append, bitstream_length] at hl
    refine ⟨hv, by omega, rest.length, by omega, ?_⟩
    rw [h1]
    congr 1
    refine List.eq_replicate_of_mem fun b hb => ?_
    cases b
    · rfl
    · exact absurd hb ht.2
  · cases h

end Sys2Proof.Machine
end

