-- ==== Sys2Proof/Laws/Capitalization.lean ====
section
/-! SUPPORT. What the walks of `CAPENC` and `CAPDEC` and the heuristic of `CAPCHK` do
(spec/43_capitalization_parity_packer.md rules R136, R141, R146). -/

namespace Sys2Proof.Machine

/-! ### The case of one character -/

/-- Only the case of a character can be changed by `to_upper` and `to_lower`. -/
theorem case_laws : ∀ c : CodeUnit,
    toUpper (toUpper c) = toUpper c ∧ toUpper (toLower c) = toUpper c ∧
    toLower (toUpper c) = toLower c ∧ toLower (toLower c) = toLower c ∧
    isAlpha (toUpper c) = isAlpha c ∧ isAlpha (toLower c) = isAlpha c := by decide +kernel

@[simp] theorem toUpper_toUpper (c : CodeUnit) : toUpper (toUpper c) = toUpper c := (case_laws c).1
@[simp] theorem toUpper_toLower (c : CodeUnit) : toUpper (toLower c) = toUpper c := (case_laws c).2.1
@[simp] theorem toLower_toUpper (c : CodeUnit) : toLower (toUpper c) = toLower c := (case_laws c).2.2.1
@[simp] theorem toLower_toLower (c : CodeUnit) : toLower (toLower c) = toLower c :=
  (case_laws c).2.2.2.1
@[simp] theorem isAlpha_toUpper (c : CodeUnit) : isAlpha (toUpper c) = isAlpha c :=
  (case_laws c).2.2.2.2.1
@[simp] theorem isAlpha_toLower (c : CodeUnit) : isAlpha (toLower c) = isAlpha c :=
  (case_laws c).2.2.2.2.2

/-- A character that is no letter has no case. -/
theorem case_of_not_isAlpha : ∀ c : CodeUnit, isAlpha c = false →
    toUpper c = c ∧ toLower c = c ∧ caseBit c = none := by decide +kernel

/-- A letter carries the bit of its case. -/
theorem caseBit_of_isAlpha : ∀ c : CodeUnit, isAlpha c = true →
    caseBit (toUpper c) = some true ∧ caseBit (toLower c) = some false := by decide +kernel

theorem isSome_caseBit : ∀ c : CodeUnit, (caseBit c).isSome = isAlpha c := by decide +kernel

/-- As many case bits as letters. -/
theorem length_filterMap_caseBit (run : List CodeUnit) :
    (run.filterMap caseBit).length = run.countP isAlpha := by
  induction run with
  | nil => rfl
  | cons c cs ih =>
    have := isSome_caseBit c
    cases h : caseBit c with
    | none => simp [h] at this; simp [h, ih, ← this]
    | some b => simp [h] at this; simp [h, ih, ← this]

/-! ### CAPENC -/

/-- All that the walk of `CAPENC` does: how many letters carried a bit, and each character (R136). -/
theorem carryBits_spec (val : List Bit) (run : List CodeUnit) :
    (carryBits val run).2 = Nat.min val.length (run.countP isAlpha) ∧
    (carryBits val run).1.length = run.length ∧
    ∀ i c, run[i]? = some c →
      (isAlpha c = false → (carryBits val run).1[i]? = some c) ∧
      (isAlpha c = true → val[lettersBefore run i]? = some true →
        (carryBits val run).1[i]? = some (toUpper c)) ∧
      (isAlpha c = true → val[lettersBefore run i]? ≠ some true →
        (carryBits val run).1[i]? = some (toLower c)) := by
  induction run generalizing val with
  | nil => simp [carryBits]
  | cons d ds ih =>
    unfold carryBits
    split
    · next ha =>
      split
      · next b rest =>
        obtain ⟨h1, h2, h3⟩ := ih rest
        refine ⟨by simp [h1, ha], by simp [h2], ?_⟩
        intro i c hc
        cases i with
        | zero => simp at hc; subst hc; simp [ha, lettersBefore]; cases b <;> simp
        | succ i => simpa [lettersBefore, ha] using h3 i c (by simpa using hc)
      · obtain ⟨h1, h2, h3⟩ := ih []
        refine ⟨by simp [h1], by simp [h2], ?_⟩
        intro i c hc
        cases i with
        | zero => simp at hc; subst hc; simp [ha, lettersBefore]
        | succ i => simpa [lettersBefore, ha] using h3 i c (by simpa using hc)
    · next ha =>
      obtain ⟨h1, h2, h3⟩ := ih val
      refine ⟨by simp [h1, ha], by simp [h2], ?_⟩
      intro i c hc
      cases i with
      | zero => simp at hc; subst hc; simp [ha]
      | succ i => simpa [lettersBefore, ha] using h3 i c (by simpa using hc)

/-- The case bits of the walked run: the value as far as there are letters, then zeros (R137). -/
theorem filterMap_caseBit_carryBits (val : List Bit) (run : List CodeUnit) :
    (carryBits val run).1.filterMap caseBit =
      val.take (run.countP isAlpha) ++
        List.replicate (run.countP isAlpha - val.length) false := by
  induction run generalizing val with
  | nil => simp [carryBits]
  | cons d ds ih =>
    unfold carryBits
    split
    · next ha =>
      split
      · next b rest => cases b <;> simp [caseBit_of_isAlpha d ha, ih, ha]
      · simp [caseBit_of_isAlpha d ha, ih, ha, List.replicate_succ]
    · next ha => simp [case_of_not_isAlpha d (by simpa using ha), ih, ha]

/-- The walk changes nothing but case. -/
theorem map_toUpper_carryBits (val : List Bit) (run : List CodeUnit) :
    (carryBits val run).1.map toUpper = run.map toUpper := by
  induction run generalizing val with
  | nil => rfl
  | cons d ds ih =>
    unfold carryBits
    split
    · split
      · next b _ => cases b <;> simp [ih]
      · simp [ih]
    · simp [ih]

/-- The walk does not look at the case of its input. -/
theorem carryBits_map (f : CodeUnit → CodeUnit)
    (hf : ∀ c, isAlpha (f c) = isAlpha c ∧ toUpper (f c) = toUpper c ∧ toLower (f c) = toLower c ∧
      (isAlpha c = false → f c = c)) (val : List Bit) (run : List CodeUnit) :
    carryBits val (run.map f) = carryBits val run := by
  induction run generalizing val with
  | nil => rfl
  | cons d ds ih =>
    rw [List.map_cons]
    unfold carryBits
    simp only [hf, ih]
    split
    · rfl
    · next h => simp [(hf d).2.2.2 (by simpa using h)]

theorem capenc_snd (run : List CodeUnit) (val : List Bit) (min : Nat) :
    (capenc run val min).2 = Nat.min val.length (run.countP isAlpha) := (carryBits_spec val run).1

/-- Below the threshold the whole run is lowercase; otherwise it is the walked run (R136). -/
theorem capenc_fst (run : List CodeUnit) (val : List Bit) (min : Nat) :
    (capenc run val min).1 =
      if Nat.min val.length (run.countP isAlpha) < min then run.map toLower
      else (carryBits val run).1 := by
  rw [← capenc_snd run val min]; rfl

@[simp] theorem map_toUpper_capenc (run : List CodeUnit) (val : List Bit) (min : Nat) :
    (capenc run val min).1.map toUpper = run.map toUpper := by
  rw [capenc_fst]
  split
  · simp
  · exact map_toUpper_carryBits val run

@[simp] theorem length_capenc (run : List CodeUnit) (val : List Bit) (min : Nat) :
    (capenc run val min).1.length = run.length := by
  have h := congrArg List.length (map_toUpper_capenc run val min)
  rwa [List.length_map, List.length_map] at h

@[simp] theorem countP_isAlpha_map_toLower (run : List CodeUnit) :
    (run.map toLower).countP isAlpha = run.countP isAlpha := by
  simp [List.countP_map, Function.comp_def]

@[simp] theorem countP_isAlpha_map_toUpper (run : List CodeUnit) :
    (run.map toUpper).countP isAlpha = run.countP isAlpha := by
  simp [List.countP_map, Function.comp_def]

theorem countP_isAlpha_capenc (run : List CodeUnit) (val : List Bit) (min : Nat) :
    (capenc run val min).1.countP isAlpha = run.countP isAlpha := by
  rw [← countP_isAlpha_map_toUpper, map_toUpper_capenc, countP_isAlpha_map_toUpper]

/-! ### CAPDEC -/

/-- All that the walk of `CAPDEC` does: the case bits of the first letters (R141). -/
theorem recoverBits_eq (n : Nat) (run : List CodeUnit) :
    recoverBits n run = (run.filterMap caseBit).take n := by
  induction run generalizing n with
  | nil => cases n <;> simp [recoverBits]
  | cons c cs ih =>
    cases n with
    | zero => simp [recoverBits]
    | succ n =>
      unfold recoverBits
      split
      · next b hb => simp [hb, ih]
      · next hb => simp [hb, ih]

/-- All that `CAPDEC` answers (R141). -/
theorem capdec_eq (run : List CodeUnit) (era : List Bit) :
    capdec run era =
      if true ∈ era ∨ run.countP isAlpha < 8 then none
      else some (byteOfBits ((run.filterMap caseBit).take 8)) := by
  have hany : era.any id = true ↔ true ∈ era := by simp
  have hlen : (recoverBits minByte run).length < minByte ↔ run.countP isAlpha < 8 := by
    rw [recoverBits_eq, List.length_take, length_filterMap_caseBit, minByte]; omega
  unfold capdec
  by_cases h1 : true ∈ era
  · rw [if_pos (hany.2 h1), if_pos (.inl h1)]
  · rw [if_neg (by rwa [hany])]
    by_cases h2 : run.countP isAlpha < 8
    · rw [if_pos (hlen.2 h2), if_pos (.inr h2)]
    · rw [if_neg (by rwa [hlen]), if_neg (by tauto), recoverBits_eq]; rfl

/-- Eight bits and the byte they assemble to (R138). -/
theorem getMsbD_byteOfBits {l : List Bit} (h : l.length = 8) {t : Nat} (ht : t < 8) :
    l[t]? = some ((byteOfBits l).getMsbD t) := by
  match l, h with
  | [a, b, c, d, e, f, g, i], _ => clear h; revert a b c d e f g i t; decide +kernel

/-! ### CAPCHK -/

theorem allZero_iff (res : List OptByte) : allZero res = true ↔ ∀ b, some b ∈ res → b = 0x00 := by
  induction res with
  | nil => simp [allZero]
  | cons r rs ih => cases r <;> simp [allZero] at * <;> simp [ih]

theorem allOnes_iff (res : List OptByte) : allOnes res = true ↔ ∀ b, some b ∈ res → b = 0xFF := by
  induction res with
  | nil => simp [allOnes]
  | cons r rs ih => cases r <;> simp [allOnes] at * <;> simp [ih]

/-- All that the heuristic of `CAPCHK` says (R146). -/
theorem casingLost_iff (res : List OptByte) :
    casingLost res = true ↔
      (∀ b, some b ∈ res → b = 0x00) ∨ (∀ b, some b ∈ res → b = 0xFF) := by
  simp [casingLost, allZero_iff, allOnes_iff]

theorem capchk_of_lost {res : List OptByte} (h : casingLost res = true) :
    capchk res = List.replicate res.length none := by simp [capchk, h, List.map_const']

theorem capchk_of_not_lost {res : List OptByte} (h : casingLost res = false) : capchk res = res := by
  simp [capchk, h]

@[simp] theorem capchk_length (res : List OptByte) : (capchk res).length = res.length := by
  unfold capchk; split <;> simp

end Sys2Proof.Machine
end

