-- ==== Sys2Proof/Laws/Erasure.lean ====
section
/-! SUPPORT. What the marking walks of `ERAMAP` and the zero-forcing do
(spec/44_erasure_position_mapper.md rules R161 to R164). -/

namespace Sys2Proof.Machine

/-! ### Lengths -/

@[simp] theorem markPosition_length (p : Int) (bera : List Bit) :
    (markPosition p bera).length = bera.length := by
  unfold markPosition; split <;> simp

@[simp] theorem markCapErasures_length (kb g : Nat) (es bera : List Bit) :
    (markCapErasures kb g es bera).length = bera.length := by
  induction es generalizing g bera with
  | nil => rfl
  | cons e es ih => rw [markCapErasures, ih]; split <;> simp

@[simp] theorem markCharErasures_length (plen i : Nat) (es bera : List Bit) :
    (markCharErasures plen i es bera).length = bera.length := by
  induction es generalizing i bera with
  | nil => rfl
  | cons e es ih => rw [markCharErasures, ih]; split <;> simp

@[simp] theorem erasureSet_length (cera : List Bit) (skip plen : Nat) (capera : List Bit)
    (kb len : Nat) : (erasureSet cera skip plen capera kb len).length = len := by
  simp [erasureSet]

@[simp] theorem zeroForce_length (bera : List Bit) (cw : List Byte) :
    (zeroForce bera cw).length = Nat.min bera.length cw.length := by
  simp [zeroForce]

/-! ### What is marked -/

/-- All that marking one re-based position does (R163). -/
theorem markPosition_getElem? (p : Int) (bera : List Bit) (b : Nat) :
    (markPosition p bera)[b]? = some true ↔
      bera[b]? = some true ∨ (b < bera.length ∧ p = b) := by
  unfold markPosition
  split
  · next h =>
    rw [List.getElem?_set]
    by_cases e : p.toNat = b
    · have : b < bera.length := by omega
      simp [e, this]; right; omega
    · simp [e]; intro h1 h2; omega
  · next h =>
    simp only [iff_self_or, and_imp]; intro h1 h2; exfalso; apply h; omega

/-- All that the walk over the cap-parity erasures does, inside the codeword (R161). -/
theorem markCapErasures_getElem? (kb : Nat) (es : List Bit) (g : Nat) (bera : List Bit)
    (hl : kb + g + es.length ≤ bera.length) (b : Nat) :
    (markCapErasures kb g es bera)[b]? = some true ↔
      bera[b]? = some true ∨ ∃ j, es[j]? = some true ∧ kb + g + j = b := by
  induction es generalizing g bera with
  | nil => simp [markCapErasures]
  | cons e es ih =>
    simp only [List.length_cons] at hl
    have hlen : (if e then bera.set (kb + g) true else bera).length = bera.length := by
      split <;> simp
    rw [markCapErasures, ih (g + 1) _ (by omega)]
    constructor
    · rintro (h | ⟨j, hj, rfl⟩)
      · cases e
        · simp at h; exact .inl h
        · simp [List.getElem?_set] at h
          by_cases hb : kb + g = b
          · exact .inr ⟨0, by simp, by omega⟩
          · simp [hb] at h; exact .inl h
      · exact .inr ⟨j + 1, by simpa using hj, by omega⟩
    · rintro (h | ⟨j, hj, rfl⟩)
      · left; split
        · rw [List.getElem?_set]; split
          · simp; omega
          · exact h
        · exact h
      · cases j with
        | zero =>
          simp at hj; subst hj; left
          rw [if_pos rfl, List.getElem?_set]; simp; omega
        | succ j => right; exact ⟨j, by simpa using hj, by omega⟩

/-- All that the walk over the character erasures does: an erased character marks the positions of the
bytes that it overlaps (R161, R162). -/
theorem markCharErasures_getElem? (plen : Nat) (es : List Bit) (i : Nat) (bera : List Bit) (b : Nat)
    (hb : b < bera.length) :
    (markCharErasures plen i es bera)[b]? = some true ↔
      bera[b]? = some true ∨
        ∃ j, es[j]? = some true ∧
          (5 * (i + j) / 8 = plen + b ∨ (5 * (i + j) + 4) / 8 = plen + b) := by
  induction es generalizing i bera with
  | nil => simp [markCharErasures]
  | cons e es ih =>
    have key : (if e then markPosition (lastPosition plen i) (markPosition (firstPosition plen i) bera)
        else bera)[b]? = some true ↔
        bera[b]? = some true ∨ (e = true ∧ (5 * i / 8 = plen + b ∨ (5 * i + 4) / 8 = plen + b)) := by
      cases e
      · simp
      · rw [if_pos rfl, markPosition_getElem?, markPosition_getElem?, markPosition_length]
        unfold firstPosition lastPosition
        rw [or_assoc]
        apply or_congr Iff.rfl
        simp only [hb, true_and]
        apply or_congr <;> omega
    rw [markCharErasures, ih (i + 1) _ (by split <;> simpa using hb), key, or_assoc]
    apply or_congr Iff.rfl
    constructor
    · rintro (⟨rfl, h⟩ | ⟨j, hj, h⟩)
      · exact ⟨0, by simp, by simpa using h⟩
      · exact ⟨j + 1, by simpa using hj, by rw [show i + (j + 1) = i + 1 + j by omega]; exact h⟩
    · rintro ⟨j, hj, h⟩
      cases j with
      | zero => left; simp at hj; exact ⟨hj, by simpa using h⟩
      | succ j =>
        right
        exact ⟨j, by simpa using hj, by rw [show i + 1 + j = i + (j + 1) by omega]; exact h⟩

/-- All that zero-forcing does to one byte (R164). -/
theorem zeroForce_getElem? {bera : List Bit} {cw : List Byte} {b : Nat} {e : Bit} {d : Byte}
    (he : bera[b]? = some e) (hd : cw[b]? = some d) :
    (zeroForce bera cw)[b]? = some (if e then 0x00 else d) := by
  simp [zeroForce, List.getElem?_zipWith, he, hd]

/-! ### The erased positions -/

theorem mem_erasedPositions {bera : List Bit} {b : Nat} :
    b ∈ erasedPositions bera ↔ bera[b]? = some true := by
  unfold erasedPositions
  rw [List.mem_filter, List.mem_range, List.getD_eq_getElem?_getD]
  by_cases h : b < bera.length <;> simp [h]

theorem nodup_erasedPositions (bera : List Bit) : (erasedPositions bera).Nodup :=
  List.nodup_range.filter _

/-- The size of the erasure set is the number of its ones (R165). -/
theorem length_erasedPositions (bera : List Bit) :
    (erasedPositions bera).length = erasureCount bera := by
  unfold erasedPositions erasureCount
  induction bera with
  | nil => rfl
  | cons e es ih =>
    rw [List.length_cons, List.range_succ_eq_map, List.filter_cons, List.filter_map, List.count_cons]
    cases e <;> simpa [Function.comp_def] using ih

/-- Zero-forcing leaves 00 at every erased position (R164). -/
theorem zeroForce_of_erased {bera : List Bit} {cw : List Byte} (h : bera.length = cw.length) {b : Nat}
    (hb : b ∈ erasedPositions bera) : (zeroForce bera cw)[b]? = some 0x00 := by
  have he := mem_erasedPositions.1 hb
  have hlt : b < cw.length := h ▸ (List.getElem?_eq_some_iff.1 he).1
  rw [zeroForce_getElem? he (List.getElem?_eq_getElem hlt)]; rfl

end Sys2Proof.Machine
end

