-- ==== Sys2Proof/Laws/State.lean ====
section
/-! SUPPORT. One lemma per field per update of the state, so that no later proof unfolds an update. -/

namespace Sys2Proof.Machine

/-! ### endCommand -/

@[simp] theorem endCommand_cfg (st : Status) (r : Option Results) (s : State) :
    (endCommand st r s).cfg = s.cfg := rfl
@[simp] theorem endCommand_cmd (st : Status) (r : Option Results) (s : State) :
    (endCommand st r s).cmd = none := rfl
@[simp] theorem endCommand_status (st : Status) (r : Option Results) (s : State) :
    (endCommand st r s).status = some st := rfl
@[simp] theorem endCommand_result (st : Status) (r : Option Results) (s : State) :
    (endCommand st r s).result = r := rfl
@[simp] theorem endCommand_scratch (st : Status) (r : Option Results) (s : State) :
    (endCommand st r s).scratch = Scratch.free s.freeCount := rfl
@[simp] theorem endCommand_freeCount (st : Status) (r : Option Results) (s : State) :
    (endCommand st r s).freeCount = s.freeCount + 1 := rfl

/-! ### complete -/

@[simp] theorem complete_cfg (r : Results) (s : State) : (complete r s).cfg = s.cfg := rfl
@[simp] theorem complete_cmd (r : Results) (s : State) : (complete r s).cmd = none := rfl
@[simp] theorem complete_status (r : Results) (s : State) : (complete r s).status = some .ok := rfl
@[simp] theorem complete_result (r : Results) (s : State) : (complete r s).result = some r := rfl
@[simp] theorem complete_scratch (r : Results) (s : State) :
    (complete r s).scratch = Scratch.free s.freeCount := rfl
@[simp] theorem complete_freeCount (r : Results) (s : State) :
    (complete r s).freeCount = s.freeCount + 1 := rfl

/-! ### raise -/

@[simp] theorem raise_cfg (e : Status) (s : State) : (raise e s).cfg = s.cfg := rfl
@[simp] theorem raise_cmd (e : Status) (s : State) : (raise e s).cmd = none := rfl
@[simp] theorem raise_status (e : Status) (s : State) : (raise e s).status = some e := rfl
@[simp] theorem raise_result (e : Status) (s : State) : (raise e s).result = none := rfl
@[simp] theorem raise_scratch (e : Status) (s : State) :
    (raise e s).scratch = Scratch.free s.freeCount := rfl
@[simp] theorem raise_freeCount (e : Status) (s : State) :
    (raise e s).freeCount = s.freeCount + 1 := rfl

/-! ### deliver -/

@[simp] theorem deliver_ok (r : Results) (s : State) : deliver (.ok r) s = complete r s := rfl
@[simp] theorem deliver_error (e : Status) (s : State) : deliver (.error e) s = raise e s := rfl

/-! ### idle -/

@[simp] theorem idle_cfg (s : State) : (idle s).cfg = s.cfg := rfl
@[simp] theorem idle_cmd (s : State) : (idle s).cmd = s.cmd := rfl
@[simp] theorem idle_status (s : State) : (idle s).status = none := rfl
@[simp] theorem idle_result (s : State) : (idle s).result = none := rfl
@[simp] theorem idle_scratch (s : State) : (idle s).scratch = s.scratch := rfl
@[simp] theorem idle_freeCount (s : State) : (idle s).freeCount = s.freeCount := rfl

/-! ### present and withFetchWord -/

@[simp] theorem present_cfg (c : RawCmd) (s : State) : (s.present c).cfg = s.cfg := rfl
@[simp] theorem present_cmd (c : RawCmd) (s : State) : (s.present c).cmd = some c := rfl
@[simp] theorem present_status (c : RawCmd) (s : State) : (s.present c).status = none := rfl
@[simp] theorem present_result (c : RawCmd) (s : State) : (s.present c).result = none := rfl
@[simp] theorem present_scratch (c : RawCmd) (s : State) : (s.present c).scratch = s.scratch := rfl
@[simp] theorem present_freeCount (c : RawCmd) (s : State) :
    (s.present c).freeCount = s.freeCount := rfl

@[simp] theorem withFetchWord_cmd (s : State) (nbits w : Nat) :
    (s.withFetchWord nbits w).cmd = some (rawOfTableWord nbits w) := rfl
@[simp] theorem withFetchWord_cfg (s : State) (nbits w : Nat) :
    (s.withFetchWord nbits w).cfg = s.cfg := rfl

/-- Ending a command does not depend on the command that was presented. -/
@[simp] theorem endCommand_present (st : Status) (r : Option Results) (c : RawCmd) (s : State) :
    endCommand st r (s.present c) = endCommand st r s := rfl
@[simp] theorem complete_present (r : Results) (c : RawCmd) (s : State) :
    complete r (s.present c) = complete r s := rfl
@[simp] theorem raise_present (e : Status) (c : RawCmd) (s : State) :
    raise e (s.present c) = raise e s := rfl

/-! ### resetWith -/

@[simp] theorem resetWith_cfg (cfg : Cfg) : (State.resetWith cfg).cfg = cfg := rfl
@[simp] theorem resetWith_cmd (cfg : Cfg) : (State.resetWith cfg).cmd = none := rfl
@[simp] theorem resetWith_status (cfg : Cfg) : (State.resetWith cfg).status = none := rfl
@[simp] theorem resetWith_result (cfg : Cfg) : (State.resetWith cfg).result = none := rfl

end Sys2Proof.Machine
end

