-- ==== Sys2Proof/Laws/Exec.lean ====
section
/-! SUPPORT. What `serve`, `exec`, `step` and `issue`'s presenting can do, said once: proofs cite these
lemmas and never unfold the meanings again. -/

namespace Sys2Proof.Machine

/-! ### serve and deliver -/

theorem serve_of_wellFormed {i : Instr} (t : State) (h : i.wellFormed) : serve i t = .next t := by
  unfold serve; rw [show i.shapeFault = none from h]

theorem serve_of_shapeFault {i : Instr} (t : State) {f : ShapeFault} (h : i.shapeFault = some f) :
    serve i t = .refused (.illShaped f) := by
  unfold serve; rw [h]

/-- All that `serve` can do. -/
theorem serve_cases (i : Instr) (t : State) :
    (i.wellFormed ∧ serve i t = .next t) ∨
      ∃ f, i.shapeFault = some f ∧ serve i t = .refused (.illShaped f) := by
  cases h : i.shapeFault with
  | none => exact .inl ⟨h, serve_of_wellFormed t h⟩
  | some f => exact .inr ⟨f, rfl, serve_of_shapeFault t h⟩

theorem serve_eq_next_iff {i : Instr} {t u : State} :
    serve i t = .next u ↔ i.wellFormed ∧ u = t := by
  rcases serve_cases i t with ⟨hw, h⟩ | ⟨f, hf, h⟩
  · simp [h, hw, eq_comm]
  · simp [h, hf, Instr.wellFormed]

/-- All that the end of a command can be: results with `OK`, or an error without results. -/
theorem deliver_cases (r : Except Status Results) (s : State) :
    (∃ d, r = .ok d ∧ deliver r s = complete d s) ∨ (∃ e, r = .error e ∧ deliver r s = raise e s) := by
  cases r with
  | ok d => exact .inl ⟨d, rfl, rfl⟩
  | error e => exact .inr ⟨e, rfl, rfl⟩

@[simp] theorem deliver_cfg (r : Except Status Results) (s : State) : (deliver r s).cfg = s.cfg := by
  cases r <;> rfl

@[simp] theorem deliver_cmd (r : Except Status Results) (s : State) : (deliver r s).cmd = none := by
  cases r <;> rfl

/-! ### exec -/

/-- What an operation answers, its shape aside: a function of the command alone. The two
pseudo-operations are expanded first (`exec_eq`). -/
def answer : Instr → Except Status Results
  | .b32enc data => .ok (.b32enc (Machine.b32enc data))
  | .b32dec text => (Machine.b32dec text).map .b32dec
  | .tlcorr text => .ok (.tlcorr (correctedText text) (canonicalText text) (charErasures text))
  | .capenc run val min =>
    .ok (.capenc (Machine.capenc run val min).1 (Machine.capenc run val min).2)
  | .capdec run era => .ok (.capdec (Machine.capdec run era))
  | .capchk res => .ok (.capchk (Machine.capchk res) (casingLost res))
  | .eramap cera skip plen capera kb cw =>
    .ok (.eramap (erasureSet cera skip plen capera kb cw.length)
      (zeroForce (erasureSet cera skip plen capera kb cw.length) cw)
      (erasureCount (erasureSet cera skip plen capera kb cw.length)))
  | .illegal => .error .illegalOp
  | .capencPrefix _ => .error .illegalOp
  | .capencByte _ _ => .error .illegalOp

/-- Every command, at once: its expansion is checked for shape, and its answer is delivered. -/
theorem exec_eq (i : Instr) (s : State) :
    exec i s = serve (i.expand s.cfg) (deliver (answer (i.expand s.cfg)) s) := by
  cases i <;> rfl

theorem exec_eq_next_iff {i : Instr} {s t : State} :
    exec i s = .next t ↔
      (i.expand s.cfg).wellFormed ∧ t = deliver (answer (i.expand s.cfg)) s := by
  rw [exec_eq, serve_eq_next_iff]

/-- A command does not see which command stands on the port. -/
theorem exec_present (i : Instr) (c : RawCmd) (s : State) : exec i (s.present c) = exec i s := by
  cases i <;> rfl

/-! ### step -/

/-- All that a step with a next state can be: nothing was presented, or the decoded command ran. -/
theorem step_next_cases {s t : State} (h : step s = .next t) :
    (s.cmd = none ∧ t = idle s) ∨
      ∃ c i, s.cmd = some c ∧ s.cfg.legal = true ∧ decode c = .ok i ∧ exec i s = .next t := by
  unfold step fetch at h
  split at h
  · next hc => exact .inl ⟨hc, by cases h; rfl⟩
  · next c hc =>
    split at h
    · cases h
    · next hl =>
      split at h
      · cases h
      · next i hi => exact .inr ⟨c, i, hc, by simpa [checkInstance] using hl, hi, h⟩

/-- What the decoder accepts is an operation, well-formed, and is what the ports select. -/
theorem decode_eq_ok_iff {c : RawCmd} {i : Instr} :
    decode c = .ok i ↔ selectOp c.op c.ports = i ∧ i.wellFormed := by
  unfold decode
  constructor
  · intro h
    split at h
    · next hf => cases h; exact ⟨rfl, hf⟩
    · cases h
  · rintro ⟨rfl, hw⟩
    rw [show (selectOp c.op c.ports).shapeFault = none from hw]

end Sys2Proof.Machine
end

