-- ==== Sys2Proof/Laws/PerInstr.lean ====
section
/-! SUPPORT. Facts about every instruction as syntax, one lemma per constructor of `Instr`. -/

namespace Sys2Proof.Laws.SelectsBack

/-- The operation selected by what the encoder presents is the instruction itself, or the `CAPENC` command
that a pseudo-operation stands for (R71, R87). -/
def Statement (i : Instr) : Prop :=
  ∀ cfg : Cfg, selectOp (encode cfg i).op (encode cfg i).ports = i.expand cfg

theorem b32enc (data : List Byte) : Statement (.b32enc data) := fun _ => rfl
theorem b32dec (text : List CodeUnit) : Statement (.b32dec text) := fun _ => rfl
theorem tlcorr (text : List CodeUnit) : Statement (.tlcorr text) := fun _ => rfl
theorem capenc (run : List CodeUnit) (val : List Bit) (min : Nat) : Statement (.capenc run val min) :=
  fun _ => rfl
theorem capdec (run : List CodeUnit) (era : List Bit) : Statement (.capdec run era) := fun _ => rfl
theorem capchk (res : List OptByte) : Statement (.capchk res) := fun _ => rfl
theorem eramap (cera : List Bit) (skip plen : Nat) (capera : List Bit) (kb : Nat) (cw : List Byte) :
    Statement (.eramap cera skip plen capera kb cw) := fun _ => rfl
theorem illegal : Statement .illegal := fun _ => rfl
theorem capencPrefix (run : List CodeUnit) : Statement (.capencPrefix run) := fun _ => rfl
theorem capencByte (run : List CodeUnit) (b : Byte) : Statement (.capencByte run b) := fun _ => rfl

end Sys2Proof.Laws.SelectsBack
end

