-- ==== Sys2Proof/Laws/Transliteration.lean ====
section
/-! SUPPORT. What `TLCORR` does to one character and to a text (spec/42_transliteration_corrector.md rule
R126). -/

namespace Sys2Proof.Machine

/-! ### One character -/

/-- The canonical character is a symbol, whatever the input (R130). -/
theorem toUpper_transliterate_mem_alph : ∀ c : CodeUnit, toUpper (transliterate c).1 ∈ alph := by
  decide +kernel

/-- An erased character holds the placeholder `A`. -/
theorem transliterate_of_erased : ∀ c : CodeUnit, (transliterate c).2 = true →
    (transliterate c).1 = 65 := by decide +kernel

/-- A corrected character is a fixed point, and no erasure. -/
theorem transliterate_transliterate : ∀ c : CodeUnit,
    transliterate (transliterate c).1 = ((transliterate c).1, false) := by decide +kernel

/-- A symbol, in either case, is kept and no erasure. -/
theorem transliterate_of_toUpper_mem_alph : ∀ c : CodeUnit, toUpper c ∈ alph → c.toNat ≠ 108 →
    transliterate c = (c, false) := by decide +kernel

/-- No symbol of `ALPH` is the lower-case `l` in another case. -/
theorem ne_108_of_toUpper_mem_alph : ∀ c : CodeUnit, toUpper c ∈ alph → c.toNat ≠ 108 := by
  decide +kernel

/-- Erased exactly when unmappable (R76, R126). -/
theorem transliterate_erased_iff : ∀ c : CodeUnit, (transliterate c).2 = true ↔ Unmappable c := by
  unfold Unmappable; decide +kernel

/-- A flipped case or a confusable character comes back to the value of the symbol it stands for (R191 (b)),
and is no erasure. -/
theorem transliterate_of_standsFor {c d : CodeUnit} (hc : toUpper c ∈ alph) (h : StandsFor d c) :
    toUpper (transliterate d).1 = toUpper c ∧ (transliterate d).2 = false := by
  rcases h with h | ⟨h, rfl⟩ | ⟨h, rfl | rfl | rfl⟩ | ⟨h, rfl⟩
  · have hd : toUpper d ∈ alph := by rwa [h]
    rw [transliterate_of_toUpper_mem_alph d hd (ne_108_of_toUpper_mem_alph d hd)]
    exact ⟨h, rfl⟩
  all_goals rw [h]; decide

/-! ### A text -/

@[simp] theorem correctedText_length (text : List CodeUnit) :
    (correctedText text).length = text.length := by simp [correctedText]
@[simp] theorem canonicalText_length (text : List CodeUnit) :
    (canonicalText text).length = text.length := by simp [canonicalText]
@[simp] theorem charErasures_length (text : List CodeUnit) :
    (charErasures text).length = text.length := by simp [charErasures]

/-- `canon` is `corr` in uppercase (R128). -/
theorem canonicalText_eq_map (text : List CodeUnit) :
    canonicalText text = (correctedText text).map toUpper := by
  simp [canonicalText, correctedText]

/-- Every character of `canon` is a symbol (R130). -/
theorem mem_alph_of_mem_canonicalText {text : List CodeUnit} {c : CodeUnit}
    (h : c ∈ canonicalText text) : c ∈ alph := by
  simp only [canonicalText, List.mem_map] at h
  obtain ⟨d, _, rfl⟩ := h
  exact toUpper_transliterate_mem_alph d

/-- A text of symbols, in any case, passes unchanged and without an erasure (R130). -/
theorem tlcorr_of_symbols {text : List CodeUnit} (h : ∀ c ∈ text, toUpper c ∈ alph) :
    correctedText text = text ∧ canonicalText text = text.map toUpper ∧
      charErasures text = List.replicate text.length false := by
  have key : ∀ c ∈ text, transliterate c = (c, false) := fun c hc =>
    transliterate_of_toUpper_mem_alph c (h c hc) (ne_108_of_toUpper_mem_alph c (h c hc))
  refine ⟨?_, ?_, ?_⟩
  · rw [correctedText, List.map_congr_left fun c hc => by rw [key c hc]]; simp
  · exact List.map_congr_left fun c hc => by rw [key c hc]
  · rw [charErasures, List.map_congr_left fun c hc => by rw [key c hc]]; simp [List.map_const']

end Sys2Proof.Machine
end

