-- ==== Sys2Proof/Laws/Programmes.lean ====
section
/-! SUPPORT. What a host programme's building blocks do, said once (spec/45_host_pipeline.md). -/

namespace Sys2Proof.Machine

/-! ### Sequencing -/

theorem andThen_ok {α β : Type} {m : Programme α} {f : α → Programme β} {s t : State} {a : α}
    (h : m s = .next (t, .ok a)) : andThen m f s = f a t := by
  simp [andThen, h]

theorem andThen_error {α β : Type} {m : Programme α} {f : α → Programme β} {s t : State} {e : Status}
    (h : m s = .next (t, .error e)) : andThen m f s = .next (t, .error e) := by
  simp [andThen, h]

theorem andThen_refused {α β : Type} {m : Programme α} {f : α → Programme β} {s : State} {r : Refusal}
    (h : m s = .refused r) : andThen m f s = .refused r := by
  simp [andThen, h]

/-- All that a sequence with a next state can be: the first part failed, or it gave a value and the second
part went on from there. -/
theorem andThen_next_cases {α β : Type} {m : Programme α} {f : α → Programme β} {s t : State}
    {r : Except Status β} (h : andThen m f s = .next (t, r)) :
    (∃ e, m s = .next (t, .error e) ∧ r = .error e) ∨
      ∃ u a, m s = .next (u, .ok a) ∧ f a u = .next (t, r) := by
  unfold andThen at h
  split at h
  · next u a hm => exact .inr ⟨u, a, hm, h⟩
  · next u e hm =>
    cases h
    exact .inl ⟨e, hm, rfl⟩
  · cases h
  · cases h

@[simp] theorem finishWith_apply {α : Type} (a : α) (s : State) :
    finishWith a s = .next (s, .ok a) := rfl

@[simp] theorem failWith_apply {α : Type} (e : Status) (s : State) :
    (failWith e : Programme α) s = .next (s, .error e) := rfl

/-- A programme chosen by a test, run. -/
theorem ite_programme {α : Type} (c : Prop) [Decidable c] (m n : Programme α) (s : State) :
    (if c then m else n) s = if c then m s else n s := by
  split_ifs <;> rfl

/-! ### Issuing a command -/

/-- The host reads back exactly what the command answered. -/
@[simp] theorem reply_deliver (r : Except Status Results) (s : State) : reply (deliver r s) = r := by
  cases r with
  | ok d => rfl
  | error e => cases e <;> rfl

/-- All that issuing a well-formed command on a legal instance does: the command's answer comes back, and
the block is in the state that delivered it. -/
theorem issue_eq {i : Instr} {s : State} (hl : s.cfg.legal = true)
    (hw : (i.expand s.cfg).wellFormed) :
    issue i s = .next (deliver (answer (i.expand s.cfg)) s, answer (i.expand s.cfg)) := by
  have hsel : selectOp (encode s.cfg i).op (encode s.cfg i).ports = i.expand s.cfg := by
    cases i <;> rfl
  have hd : decode (encode s.cfg i) = .ok (i.expand s.cfg) := decode_eq_ok_iff.2 ⟨hsel, hw⟩
  have he : exec (i.expand s.cfg) s = .next (deliver (answer (i.expand s.cfg)) s) := by
    rw [show exec (i.expand s.cfg) s = exec i s by cases i <;> rfl]
    exact exec_eq_next_iff.2 ⟨hw, rfl⟩
  simp only [issue, step, fetch, present_cmd, checkInstance, present_cfg, hl, if_true, hd,
    exec_present, he, reply_deliver]

/-- Issuing a command, whatever comes of it, leaves `CFG` alone. -/
theorem issue_cfg {i : Instr} {s t : State} {r : Except Status Results}
    (h : issue i s = .next (t, r)) : t.cfg = s.cfg := by
  unfold issue at h
  split at h
  · next u hu =>
    cases h
    rcases step_next_cases hu with ⟨hc, _⟩ | ⟨c, i, _, _, _, he⟩
    · simp at hc
    · obtain ⟨_, rfl⟩ := exec_eq_next_iff.1 he
      simp
  · cases h
  · cases h

/-- Issuing a command that answers results. -/
theorem issue_ok {i : Instr} {s : State} {d : Results} (hl : s.cfg.legal = true)
    (hw : (i.expand s.cfg).wellFormed) (ha : answer (i.expand s.cfg) = .ok d) :
    issue i s = .next (complete d s, .ok d) := by
  rw [issue_eq hl hw, ha]; rfl

/-! ### Cutting a sequence -/

theorem slice_length {α : Type} (x : List α) (a n : Nat) :
    (slice x a n).length = Nat.min n (x.length - a) := by simp [slice]

theorem slice_length_of_le {α : Type} {x : List α} {a n : Nat} (h : a + n ≤ x.length) :
    (slice x a n).length = n := by
  rw [slice_length]; exact Nat.min_eq_left (by omega)

theorem slice_getElem? {α : Type} (x : List α) (a n i : Nat) :
    (slice x a n)[i]? = if i < n then x[a + i]? else none := by
  simp [slice, List.getElem?_take]

theorem map_slice {α β : Type} (f : α → β) (x : List α) (a n : Nat) :
    (slice x a n).map f = slice (x.map f) a n := by
  simp [slice]

theorem slice_append_left {α : Type} (x y : List α) : slice (x ++ y) 0 x.length = x := by
  simp [slice]

theorem splice_length {α : Type} {x y : List α} {a : Nat} (h : a + y.length ≤ x.length) :
    (splice x a y).length = x.length := by
  simp [splice]; omega

theorem splice_getElem? {α : Type} {x y : List α} {a : Nat} (h : a + y.length ≤ x.length) (i : Nat) :
    (splice x a y)[i]? = if a ≤ i ∧ i < a + y.length then y[i - a]? else x[i]? := by
  unfold splice
  have hl : (x.take a).length = a := by simp; omega
  rcases lt_or_ge i a with h1 | h1
  · rw [if_neg (by omega), List.append_assoc, List.getElem?_append_left (by omega),
      List.getElem?_take_of_lt h1]
  · rcases lt_or_ge i (a + y.length) with h2 | h2
    · rw [if_pos ⟨h1, h2⟩, List.append_assoc, List.getElem?_append_right (by omega), hl,
        List.getElem?_append_left (by omega)]
    · rw [if_neg (by omega), List.getElem?_append_right (by simp; omega), List.getElem?_drop]
      congr 1; simp; omega

/-- What was put in is what is cut out. -/
theorem slice_splice_same {α : Type} {x y : List α} {a : Nat} (h : a + y.length ≤ x.length) :
    slice (splice x a y) a y.length = y := by
  apply List.ext_getElem?; intro i
  rw [slice_getElem?, splice_getElem? h]
  split
  · rw [if_pos (by omega)]; congr 1; omega
  · rw [List.getElem?_eq_none (by omega)]

/-- A cut beside the place is untouched. -/
theorem slice_splice_other {α : Type} {x y : List α} {a b n : Nat} (h : a + y.length ≤ x.length)
    (hd : b + n ≤ a ∨ a + y.length ≤ b) : slice (splice x a y) b n = slice x b n := by
  apply List.ext_getElem?; intro i
  rw [slice_getElem?, slice_getElem?, splice_getElem? h]
  split
  · rw [if_neg (by omega)]
  · rfl

/-- Putting in what is the same through `f` changes nothing through `f`. -/
theorem map_splice_eq {α β : Type} (f : α → β) {x y : List α} {a n : Nat} (h : a + n ≤ x.length)
    (hf : y.map f = (slice x a n).map f) : (splice x a y).map f = x.map f := by
  have hl : y.length = n := by
    have := congrArg List.length hf
    rwa [List.length_map, List.length_map, slice_length_of_le h] at this
  have hget : ∀ i, i < n → (y[i]?).map f = (x[a + i]?).map f := by
    intro i hi
    have := congrArg (fun l => l[i]?) hf
    simpa [slice_getElem?, hi] using this
  apply List.ext_getElem?; intro i
  rw [List.getElem?_map, List.getElem?_map, splice_getElem? (by omega)]
  split
  · rw [hget _ (by omega)]; congr 2; omega
  · rfl

/-! ### The building blocks of HC.ENCODE -/

/-- All that a bit carrier does to its region of the text: the region alone changes, and in it nothing but
case. -/
theorem castMarker_eq {cfg : Cfg} {text : List CodeUnit} {s : State} (hl : s.cfg.legal = true) :
    castMarker cfg text s =
      .next (complete (.capenc
          (Machine.capenc (slice text 0 cfg.prefixCap.length) s.cfg.prefixCap minPrefix).1
          (Machine.capenc (slice text 0 cfg.prefixCap.length) s.cfg.prefixCap minPrefix).2) s,
        .ok (splice text 0
          (Machine.capenc (slice text 0 cfg.prefixCap.length) s.cfg.prefixCap minPrefix).1)) :=
  andThen_ok (issue_ok hl rfl rfl)

/-- What step EN7 leaves in the text, from segment `g` on. -/
def castText (cfg : Cfg) : Nat → List Byte → List CodeUnit → List CodeUnit
  | _, [], text => text
  | g, b :: bs, text =>
    castText cfg (g + 1) bs (splice text (segmentStart cfg g)
      (Machine.capenc (slice text (segmentStart cfg g) cfg.capSegmentCharCount) (bits8 b) minByte).1)

/-- All that step EN7 does to the text: nothing but case changes, nothing before segment `g` changes, and
each segment holds its byte. -/
theorem castText_spec (cfg : Cfg) (cap : List Byte) (g : Nat) (text : List CodeUnit)
    (h : segmentStart cfg g + cap.length * cfg.capSegmentCharCount ≤ text.length) :
    (castText cfg g cap text).length = text.length ∧
    (castText cfg g cap text).map toUpper = text.map toUpper ∧
    (∀ b n, b + n ≤ segmentStart cfg g → slice (castText cfg g cap text) b n = slice text b n) ∧
    ∀ k b, cap[k]? = some b →
      slice (castText cfg g cap text) (segmentStart cfg (g + k)) cfg.capSegmentCharCount =
        (Machine.capenc (slice text (segmentStart cfg (g + k)) cfg.capSegmentCharCount) (bits8 b)
          minByte).1 := by
  induction cap generalizing g text with
  | nil => simp [castText]
  | cons b bs ih =>
    have hs : segmentStart cfg (g + 1) = segmentStart cfg g + cfg.capSegmentCharCount := by
      unfold segmentStart; ring
    simp only [List.length_cons, Nat.succ_mul] at h
    generalize hS : cfg.capSegmentCharCount = S at *
    generalize hout : (Machine.capenc (slice text (segmentStart cfg g) S) (bits8 b) minByte).1 = out
    have hol : out.length = S := by rw [← hout, length_capenc, slice_length_of_le (by omega)]
    have hfit : segmentStart cfg g + out.length ≤ text.length := by omega
    have hspl := splice_length hfit
    obtain ⟨i1, i2, i3, i4⟩ := ih (g + 1) (splice text (segmentStart cfg g) out) (by rw [hspl]; omega)
    unfold castText
    rw [hS, hout]
    refine ⟨i1.trans hspl, i2.trans (map_splice_eq toUpper (n := S) (by omega) ?_), ?_, ?_⟩
    · rw [← hout]; exact map_toUpper_capenc _ _ _
    · intro b' n hb
      exact (i3 b' n (by omega)).trans (slice_splice_other hfit (by omega))
    · intro k b' hk
      cases k with
      | zero =>
        simp at hk; subst hk
        refine (i3 _ _ (by rw [hs]; rfl)).trans ?_
        have := slice_splice_same hfit
        rw [hol] at this
        exact this.trans hout.symm
      | succ k =>
        have := i4 k b' (by simpa using hk)
        rw [show g + (k + 1) = g + 1 + k by omega]
        refine this.trans ?_
        rw [slice_splice_other hfit]
        right; rw [hol]
        have hle : (g + 1) * S ≤ (g + 1 + k) * S := Nat.mul_le_mul_right S (by omega)
        simp only [segmentStart, hS, Nat.succ_mul] at *
        omega

/-- Step EN7 always completes. -/
theorem castSegments_eq (cfg : Cfg) (cap : List Byte) (g : Nat) (text : List CodeUnit) (s : State)
    (hl : s.cfg.legal = true) :
    ∃ t, castSegments cfg g cap text s = .next (t, .ok (castText cfg g cap text)) ∧
      t.cfg = s.cfg := by
  induction cap generalizing g text s with
  | nil => exact ⟨s, rfl, rfl⟩
  | cons b bs ih =>
    have h1 := issue_ok
      (i := .capencByte (slice text (segmentStart cfg g) cfg.capSegmentCharCount) b) hl rfl rfl
    obtain ⟨t, h2, h3⟩ := ih (g + 1) _ _ (show (complete _ s).cfg.legal = true from hl)
    exact ⟨t, (andThen_ok h1).trans h2, h3⟩

/-! ### The building blocks of HC.DECODE -/

/-- Step DE3 always completes: one `CAPDEC` result for each segment. -/
theorem readSegments_eq (cfg : Cfg) (corr : List CodeUnit) (cera : List Bit)
    (hlen : cera.length = corr.length) (n g : Nat) (s : State) (hl : s.cfg.legal = true) :
    ∃ t, readSegments cfg corr cera n g s =
        .next (t, .ok ((List.range n).map fun k =>
          Machine.capdec (slice corr (segmentStart cfg (g + k)) cfg.capSegmentCharCount)
            (slice cera (segmentStart cfg (g + k)) cfg.capSegmentCharCount))) ∧
      t.cfg = s.cfg := by
  induction n generalizing g s with
  | zero => exact ⟨s, rfl, rfl⟩
  | succ n ih =>
    have hw : (Instr.capdec (slice corr (segmentStart cfg g) cfg.capSegmentCharCount)
        (slice cera (segmentStart cfg g) cfg.capSegmentCharCount)).wellFormed := by
      simp [Instr.wellFormed, Instr.shapeFault, lengthOk, Config.maxLen, slice_length, hlen]
    have h1 := issue_ok (i := .capdec (slice corr (segmentStart cfg g) cfg.capSegmentCharCount)
        (slice cera (segmentStart cfg g) cfg.capSegmentCharCount)) (s := s) hl hw rfl
    obtain ⟨t, h2, h3⟩ := ih (g + 1) _ (show (complete _ s).cfg.legal = true from hl)
    refine ⟨t, (andThen_ok h1).trans ((andThen_ok h2).trans ?_), h3⟩
    rw [List.range_succ_eq_map, List.map_cons, List.map_map]
    simp only [Results.resPort, Function.comp_def, finishWith_apply, Nat.add_zero,
      show ∀ k, g + 1 + k = g + Nat.succ k by omega]

/-- All that steps DE1 to DE5 do with a string of the configured length. -/
theorem hcAnalyse_eq (id : List CodeUnit) (s : State) (hl : s.cfg.legal = true)
    (hm : id.length = s.cfg.encodedCharCount) :
    ∃ u, u.cfg = s.cfg ∧
      hcAnalyse id s =
        match Machine.b32dec (canonicalText id) with
        | .error e => .next (u, .error e)
        | .ok full =>
          analyseCodeword s.cfg (charErasures id)
            (Machine.capchk (segmentResults s.cfg (correctedText id) (charErasures id))) full u := by
  have h1 := issue_ok (i := .tlcorr id) hl rfl rfl
  obtain ⟨t, h2, h3⟩ := readSegments_eq s.cfg (correctedText id) (charErasures id) (by simp)
    s.cfg.capParityByteCount 0
    (complete (.tlcorr (correctedText id) (canonicalText id) (charErasures id)) s) hl
  simp only [Nat.zero_add] at h2
  have ht : t.cfg.legal = true := by rw [h3]; exact hl
  generalize hres : segmentResults s.cfg (correctedText id) (charErasures id) = res
  rw [segmentResults] at hres
  rw [hres] at h2
  have h4 := issue_ok (i := .capchk res) ht rfl rfl
  generalize hw : complete (.capchk (Machine.capchk res) (casingLost res)) t = w at h4
  have hwc : w.cfg = s.cfg := by rw [← hw]; exact h3
  have h5 := issue_eq (i := .b32dec (canonicalText id)) (s := w) (hwc ▸ hl) rfl
  simp only [Instr.expand, answer] at h5
  unfold hcAnalyse
  rw [if_neg (by simpa using hm)]
  cases hd : Machine.b32dec (canonicalText id) with
  | error e =>
    rw [hd] at h5
    exact ⟨raise e w, hwc,
      (andThen_ok h1).trans ((andThen_ok h2).trans ((andThen_ok h4).trans (andThen_error h5)))⟩
  | ok full =>
    rw [hd] at h5
    exact ⟨complete (.b32dec full) w, hwc,
      (andThen_ok h1).trans ((andThen_ok h2).trans ((andThen_ok h4).trans (andThen_ok h5)))⟩

/-- All that steps DE6 to DE9 do with a buffer of the configured length: another prefix fails; otherwise
the erasure set of `ERAMAP` is held against the budget. -/
theorem analyseCodeword_eq {cfg : Cfg} {cera : List Bit} {res : List OptByte} {full : List Byte}
    {u : State} (hl : u.cfg.legal = true)
    (hf : cfg.prefixBytes.length + (cfg.keyByteCount + cfg.baseParityByteCount) ≤ full.length) :
    (slice full 0 cfg.prefixBytes.length ≠ cfg.prefixBytes ∧
      analyseCodeword cfg cera res full u = .next (u, .error .prefixMismatch)) ∨
    (slice full 0 cfg.prefixBytes.length = cfg.prefixBytes ∧ ∃ t, t.cfg = u.cfg ∧
      let cw := assembleCodeword cfg full res
      let bera := erasureSet cera cfg.prefixCap.length cfg.prefixBytes.length (res.map Option.isNone)
        (cfg.keyByteCount + cfg.baseParityByteCount) cw.length
      analyseCodeword cfg cera res full u =
        if erasureBudget cfg < erasureCount bera then .next (t, .error .tooManyErrors)
        else .next (t, .ok { cw := zeroForce bera cw, bera := bera, count := erasureCount bera })) := by
  by_cases hp : slice full 0 cfg.prefixBytes.length = cfg.prefixBytes
  · right
    refine ⟨hp, ?_⟩
    have hw : (Instr.eramap cera cfg.prefixCap.length cfg.prefixBytes.length (res.map Option.isNone)
        (cfg.keyByteCount + cfg.baseParityByteCount) (assembleCodeword cfg full res)).wellFormed := by
      simp [Instr.wellFormed, Instr.shapeFault, lengthOk, Config.maxLen, assembleCodeword,
        slice_length_of_le hf]
    have h1 := issue_ok (i := .eramap cera cfg.prefixCap.length cfg.prefixBytes.length
      (res.map Option.isNone) (cfg.keyByteCount + cfg.baseParityByteCount)
      (assembleCodeword cfg full res)) (s := u) hl hw rfl
    generalize hu : complete (.eramap _ _ _) u = w at h1
    refine ⟨w, by rw [← hu]; rfl, ?_⟩
    dsimp only
    unfold analyseCodeword
    rw [if_neg (by simpa using hp)]
    refine (andThen_ok h1).trans ?_
    exact ite_programme _ _ _ _
  · left
    refine ⟨hp, ?_⟩
    unfold analyseCodeword
    rw [if_pos hp]; rfl

/-- Every programme part leaves `CFG` alone. -/
theorem analyseCodeword_cfg {cfg : Cfg} {cera : List Bit} {res : List OptByte} {full : List Byte}
    {s t : State} {r : Except Status Analysis}
    (h : analyseCodeword cfg cera res full s = .next (t, r)) : t.cfg = s.cfg := by
  unfold analyseCodeword at h
  split at h
  · cases h; rfl
  · rcases andThen_next_cases h with ⟨e, h1, _⟩ | ⟨u, a, h1, h2⟩
    · exact issue_cfg h1
    · rw [← issue_cfg h1]
      split at h2 <;> cases h2 <;> rfl

/-! ### What a received string leads to -/

@[simp] theorem recoveredCap_length (cfg : Cfg) (id : List CodeUnit) :
    (recoveredCap cfg id).length = cfg.capParityByteCount := by
  simp [recoveredCap, segmentResults]

@[simp] theorem receivedErasures_length (cfg : Cfg) (id : List CodeUnit) :
    (receivedErasures cfg id).length =
      cfg.keyByteCount + cfg.baseParityByteCount + cfg.capParityByteCount := by
  simp [receivedErasures]

/-- The string length of a legal `CFG` (R26 (a)). -/
theorem legal_encodedCharCount {cfg : Cfg} (h : cfg.legal = true) : cfg.encodedCharCount =
    renderedLength (cfg.prefixBytes.length + cfg.keyByteCount + cfg.baseParityByteCount) := by
  simp only [Cfg.legal, Cfg.lengthAgrees, Bool.and_eq_true, decide_eq_true_iff] at h
  exact h.1.1.2

/-- The casing regions of a legal `CFG` lie in the string (R26 (b)). -/
theorem legal_segments_fit {cfg : Cfg} (h : cfg.legal = true) :
    cfg.prefixCap.length + cfg.capParityByteCount * cfg.capSegmentCharCount ≤
      cfg.encodedCharCount := by
  simp only [Cfg.legal, Cfg.casingFits, Bool.and_eq_true, decide_eq_true_iff] at h
  exact h.1.2

/-- The bytes that a text of the configured length decodes to are the whole full buffer (R58). -/
theorem full_length {cfg : Cfg} (hl : cfg.legal = true) {id : List CodeUnit} {full : List Byte}
    (hm : id.length = cfg.encodedCharCount) (hd : b32dec (canonicalText id) = .ok full) :
    full.length = cfg.prefixBytes.length + (cfg.keyByteCount + cfg.baseParityByteCount) := by
  have h := (b32dec_ok hd).2.1
  rw [canonicalText_length, hm, legal_encodedCharCount hl] at h
  unfold renderedLength at h
  omega

theorem assembleCodeword_length {cfg : Cfg} {full : List Byte} {res : List OptByte}
    (hf : full.length = cfg.prefixBytes.length + (cfg.keyByteCount + cfg.baseParityByteCount)) :
    (assembleCodeword cfg full res).length =
      cfg.keyByteCount + cfg.baseParityByteCount + res.length := by
  simp [assembleCodeword, slice_length_of_le (show cfg.prefixBytes.length +
    (cfg.keyByteCount + cfg.baseParityByteCount) ≤ full.length by omega)]

/-- All that steps DE1 to DE9 do with a string that reaches correction: they count its erasures against the
budget and answer the received codeword. -/
theorem hcAnalyse_of_reachesCorrection {id : List CodeUnit} {full : List Byte} {s : State}
    (hl : s.cfg.legal = true) (hm : id.length = s.cfg.encodedCharCount)
    (hr : ReachesCorrection s.cfg id full) :
    ∃ t, t.cfg = s.cfg ∧
      hcAnalyse id s =
        if erasureBudget s.cfg < erasureCount (receivedErasures s.cfg id) then
          .next (t, .error .tooManyErrors)
        else .next (t, .ok { cw := receivedCodeword s.cfg id full,
                             bera := receivedErasures s.cfg id,
                             count := erasureCount (receivedErasures s.cfg id) }) := by
  have hf := full_length hl hm hr.1
  obtain ⟨u, hu, h⟩ := hcAnalyse_eq id s hl hm
  rw [hr.1] at h
  rcases analyseCodeword_eq (cera := charErasures id) (res := recoveredCap s.cfg id)
    (hu ▸ hl : u.cfg.legal = true) hf.ge with ⟨hne, _⟩ | ⟨_, t, ht, ha⟩
  · exact absurd hr.2 hne
  · refine ⟨t, ht.trans hu, h.trans (ha.trans ?_)⟩
    simp only [assembleCodeword_length hf, recoveredCap_length]
    rfl

end Sys2Proof.Machine
end

