-- ==== Sys2Proof/Laws/ReedSolomon.lean ====
section
/-! SUPPORT. How the assumptions on the Reed-Solomon primitive stand to each other
(spec/45_host_pipeline.md rules R176, R177; spec/93_implementation_defined.md G2), and that a primitive
exists of which they all hold: the evaluation code of the polynomials of degree below K over GF(256). -/

namespace Sys2Proof.Machine

/-- No undetected error, when the codeword is right outside the erasures. -/
theorem wrongPositions_eq_nil {sent received : List Byte} {erased : List Nat}
    (h : ∀ b, b < received.length → b ∉ erased → received[b]? = sent[b]?) :
    wrongPositions sent received erased = [] := by
  rw [wrongPositions, List.filter_eq_nil_iff]
  intro b hb
  by_cases he : b ∈ erased
  · simp [he]
  · simp [h b (List.mem_range.1 hb) he]

/-- Errors and erasures corrected, so erasures corrected: G2 without errors is R177. -/
theorem correctsErasures_of_correctsErrorsAndErasures {rs : ReedSolomon} {cfg : Cfg}
    (h : rs.CorrectsErrorsAndErasures cfg) : rs.CorrectsErasures cfg := by
  intro key w erased hk hw hn he hc hsame hz
  refine h key w erased hk hw hn he ?_ hz
  rwa [wrongPositions_eq_nil hsame, List.length_nil, Nat.mul_zero, Nat.zero_add]

/-- Any positions, so the cap-parity positions. -/
theorem repairsCapErasures_of_correctsErasures {rs : ReedSolomon} {cfg : Cfg}
    (hP : rs.ParityLength cfg) (h : rs.CorrectsErasures cfg) : rs.RepairsCapErasures cfg := by
  intro key w erased hk hw hn he hsame hz
  refine h key w erased hk hw hn (fun b hb => (he b hb).2) ?_ hsame hz
  have hlen : w.length = cfg.keyByteCount + cfg.baseParityByteCount + cfg.capParityByteCount := by
    rw [hw, List.length_append, hk, hP key]; omega
  have hsub : erased ⊆ List.range' (cfg.keyByteCount + cfg.baseParityByteCount)
      cfg.capParityByteCount := by
    intro b hb
    have := he b hb
    rw [List.mem_range'_1]; omega
  have := (hn.subperm hsub).length_le
  rw [List.length_range'] at this
  omega

/-! ### A primitive of which all the assumptions hold -/

/-- A systematic code: the parity of a key, and that two keys whose codewords agree at K positions or more are
one key (the Singleton bound met). -/
theorem exists_parity (k m : Nat) (h : k + m ≤ 256) :
    ∃ parity : List Byte → List Byte, (∀ key, (parity key).length = m) ∧
      parity (List.replicate k 0x00) = List.replicate m 0x00 ∧
      ∀ (x y : List Byte) (same : Finset Nat), x.length = k → y.length = k →
        (∀ b ∈ same, b < k + m) → k ≤ same.card →
        (∀ b ∈ same, (x ++ parity x)[b]? = (y ++ parity y)[b]?) → x = y := by
  have hcard : Fintype.card Byte = Nat.card (GaloisField 2 8) := by
    rw [GaloisField.card 2 8 (by decide), Fintype.card_congr BitVec.equivFin.toEquiv, Fintype.card_fin]
  let _ : Fintype (GaloisField 2 8) := Fintype.ofFinite _
  obtain ⟨e0⟩ : Nonempty (Byte ≃ GaloisField 2 8) :=
    Fintype.card_eq.1 (by rw [hcard, Nat.card_eq_fintype_card])
  classical
  obtain ⟨e, he⟩ : ∃ e : Byte ≃ GaloisField 2 8, e 0x00 = 0 :=
    ⟨e0.trans (Equiv.swap (e0 0x00) 0), by simp⟩
  have hpt : Set.InjOn (fun i => e (BitVec.ofNat 8 i)) (Set.Iio 256) := by
    intro a ha b hb hab
    have := congrArg BitVec.toNat (e.injective hab)
    simp only [BitVec.toNat_ofNat] at this
    rwa [Nat.mod_eq_of_lt ha, Nat.mod_eq_of_lt hb] at this
  generalize hpoint : (fun i => e (BitVec.ofNat 8 i)) = point at hpt
  have hk : Set.InjOn point (Finset.range k) := hpt.mono fun i hi => by
    have := Finset.mem_range.1 hi
    exact Set.mem_Iio.2 (by omega)
  let poly : List Byte → Polynomial (GaloisField 2 8) := fun key =>
    Lagrange.interpolate (Finset.range k) point fun i => e (key.getD i 0x00)
  have hdeg : ∀ key, (poly key).degree < k := fun key =>
    (Lagrange.degree_interpolate_lt _ hk).trans_eq (by rw [Finset.card_range])
  have hnode : ∀ key i, i < k → (poly key).eval (point i) = e (key.getD i 0x00) := fun key i hi =>
    Lagrange.eval_interpolate_at_node _ hk (Finset.mem_range.2 hi)
  let parity : List Byte → List Byte := fun key =>
    (List.range m).map fun j => e.symm ((poly key).eval (point (k + j)))
  have hword : ∀ key : List Byte, key.length = k → ∀ b, b < k + m →
      (key ++ parity key)[b]? = some (e.symm ((poly key).eval (point b))) := by
    intro key hl b hb
    rcases lt_or_ge b k with hlt | hge
    · rw [List.getElem?_append_left (by omega), hnode key b hlt, Equiv.symm_apply_apply,
        List.getD_eq_getElem?_getD, List.getElem?_eq_getElem (by omega)]
      rfl
    · rw [List.getElem?_append_right (by omega), hl, List.getElem?_map,
        List.getElem?_range (by omega), Option.map_some, Nat.add_sub_cancel' hge]
  refine ⟨parity, fun key => by simp [parity], ?_, ?_⟩
  · have hzero : poly (List.replicate k 0x00) = 0 := by
      refine Polynomial.eq_of_degrees_lt_of_eval_index_eq (Finset.range k) hk (by rw [Finset.card_range]; exact hdeg _)
        (by simp) fun i hi => ?_
      rw [hnode _ i (Finset.mem_range.1 hi), List.getD_eq_getElem?_getD, List.getElem?_replicate,
        if_pos (Finset.mem_range.1 hi), Option.getD_some, he, Polynomial.eval_zero]
    have hs : e.symm 0 = 0x00 := by rw [Equiv.symm_apply_eq, he]
    simp only [parity, hzero, Polynomial.eval_zero, hs, List.map_const', List.length_range]
  · intro x y same hx hy hlt hc hsame
    have hxy : poly x = poly y := by
      have hcs : (k : WithBot Nat) ≤ same.card := by exact_mod_cast hc
      refine Polynomial.eq_of_degrees_lt_of_eval_index_eq same
        (hpt.mono fun b hb => Set.mem_Iio.2 (by have := hlt b hb; omega))
        ((hdeg x).trans_le hcs) ((hdeg y).trans_le hcs) fun b hb => ?_
      have := hsame b hb
      rw [hword x hx b (hlt b hb), hword y hy b (hlt b hb)] at this
      exact e.symm.injective (Option.some.inj this)
    apply List.ext_getElem? ; intro b
    rcases lt_or_ge b k with hb | hb
    · have h1 := hword x hx b (by omega)
      have h2 := hword y hy b (by omega)
      rw [List.getElem?_append_left (by omega)] at h1 h2
      rw [h1, h2, hxy]
    · rw [List.getElem?_eq_none (by omega), List.getElem?_eq_none (by omega)]

/-- A primitive of which all the assumptions hold, under any `CFG` whose codeword fits (R26 (c)); its parity
of the all-zero key is zero. -/
theorem exists_reedSolomon (cfg : Cfg)
    (h : cfg.keyByteCount + (cfg.baseParityByteCount + cfg.capParityByteCount) ≤ 256) :
    ∃ rs : ReedSolomon, rs.ParityLength cfg ∧ rs.AcceptsCodewords ∧ rs.AcceptsOnlyCodewords cfg ∧
      rs.CorrectsErrorsAndErasures cfg ∧
      rs.encode (List.replicate cfg.keyByteCount 0x00) =
        List.replicate (cfg.baseParityByteCount + cfg.capParityByteCount) 0x00 := by
  generalize hk : cfg.keyByteCount = k at h
  generalize hm : cfg.baseParityByteCount + cfg.capParityByteCount = m at h
  obtain ⟨parity, hlen, hzero, hdist⟩ := exists_parity k m h
  classical
  let near : List Byte → List Nat → List Byte → Prop := fun w erased key =>
    key.length = k ∧ w.length = (key ++ parity key).length ∧ erased.Nodup ∧
      2 * (wrongPositions (key ++ parity key) w erased).length + erased.length ≤ m
  have huniq : ∀ w erased x y, near w erased x → near w erased y → x = y := by
    rintro w erased x y ⟨hx, hwx, _, hcx⟩ ⟨hy, hwy, _, hcy⟩
    have hw : w.length = k + m := by rw [hwx, List.length_append, hx, hlen]
    let bad : Finset Nat := erased.toFinset ∪
      ((wrongPositions (x ++ parity x) w erased).toFinset ∪
        (wrongPositions (y ++ parity y) w erased).toFinset)
    have hbad : bad.card ≤ m := by
      refine (Finset.card_union_le _ _).trans ?_
      have h1 := Finset.card_union_le (wrongPositions (x ++ parity x) w erased).toFinset
        (wrongPositions (y ++ parity y) w erased).toFinset
      have h2 := erased.toFinset_card_le
      have h3 := (wrongPositions (x ++ parity x) w erased).toFinset_card_le
      have h4 := (wrongPositions (y ++ parity y) w erased).toFinset_card_le
      omega
    refine hdist x y (Finset.range (k + m) \ bad) hx hy
      (fun b hb => Finset.mem_range.1 (Finset.mem_sdiff.1 hb).1) ?_ fun b hb => ?_
    · have := Finset.le_card_sdiff bad (Finset.range (k + m))
      rw [Finset.card_range] at this
      omega
    · obtain ⟨hb, hnb⟩ := Finset.mem_sdiff.1 hb
      have hb := Finset.mem_range.1 hb
      simp only [bad, wrongPositions, Finset.mem_union, List.mem_toFinset, List.mem_filter,
        List.mem_range, hw, hb, true_and, not_or] at hnb
      obtain ⟨he, h1, h2⟩ := hnb
      simp [he] at h1 h2
      rw [← h1, ← h2]
  refine ⟨{ encode := parity
            correct := fun w erased =>
              if hn : ∃ key, near w erased key then some (hn.choose ++ parity hn.choose) else none
            isCorrupted := fun w => decide (¬ ∃ key, w = key ++ parity key) },
    fun key => (hlen key).trans hm.symm, fun key => ?_, fun w hw hc => ?_, ?_, hzero⟩
  · simp only [decide_eq_false_iff_not, not_not]; exact ⟨key, rfl⟩
  · simp only [decide_eq_false_iff_not, not_not] at hc
    obtain ⟨key, hkey⟩ := hc
    refine ⟨key, ?_, hkey⟩
    rw [hkey, List.length_append, hlen] at hw
    omega
  · intro key w erased hkl hw hn _ hc _
    have hnear : near w erased key := ⟨hkl.trans hk, hw, hn, hc.trans hm.le⟩
    have hex : ∃ key, near w erased key := ⟨key, hnear⟩
    show (if hn : ∃ key, near w erased key then some (hn.choose ++ parity hn.choose) else none) = _
    rw [dif_pos hex, huniq w erased _ _ hex.choose_spec hnear]

end Sys2Proof.Machine
end

