-- ==== Sys2Proof/Tests/Slice0.lean ====
section
/-! SUPPORT. Tests. Expected values are the spec's own (spec/95_test_vectors.md, V1 to V15, P6; the bit-level
example of spec/40_base32_encoder.md rule R105), named beside each test; none is pasted from the model. The
last section shows, for every obligation with hypotheses, operands and a state that meet them. -/

namespace Sys2Proof.Tests
open Sys2Proof Sys2Proof.Machine

/-- The code units of a text written as characters. -/
def chars (cs : List Char) : List CodeUnit := cs.map fun c => BitVec.ofNat 8 c.toNat

/-- Bits written as digits, index 0 first (the vectors' notation). -/
def bits (ds : List Nat) : List Bit := ds.map fun d => d == 1

/-- The command presented right after reset, one step: its status and results; nothing for a refusal. -/
def oneStep (c : RawCmd) : Option (Option Status × Option Results) :=
  match step (State.reset.present c) with
  | .next t => some (t.status, t.result)
  | .fault _ => none
  | .refused _ => none

/-- The same for an instruction given as such. -/
def oneExec (i : Instr) : Option (Option Status × Option Results) :=
  match exec i State.reset with
  | .next t => some (t.status, t.result)
  | .fault _ => none
  | .refused _ => none

/-- The refusal of a presented command, if it is refused. -/
def refusal (s : State) (c : RawCmd) : Option Refusal :=
  match step (s.present c) with
  | .next _ => none
  | .fault _ => none
  | .refused r => some r

/-! ### Well-formedness: each check refuses an ill-formed term (R84) -/

theorem test_wellFormed_eraLength :
    (Instr.capdec (chars ['A', 'B']) [false]).shapeFault = some .eraLength := by decide

theorem test_wellFormed_capWindow :
    (Instr.eramap [] 0 0 [true, true] 4 [0x00, 0x00, 0x00, 0x00, 0x00]).shapeFault =
      some .capWindow := by decide

/-- The check against `MAX_LEN`, which the model takes infinite (log entry 6): every length passes, so no
term is ill-formed by it. -/
theorem test_lengthOk_infinite : ∀ n, lengthOk n = true := fun _ => rfl

theorem test_capWindow_boundary :
    (Instr.eramap [] 0 0 [true, true] 3 [0x00, 0x00, 0x00, 0x00, 0x00]).wellFormed := by decide

theorem test_step_refuses_eraLength :
    refusal State.reset { op := 0b100, ports := { run := chars ['A'], era := [] } } =
      some (.illShaped .eraLength) := by decide

theorem test_step_refuses_capWindow :
    refusal State.reset { op := 0b110, ports := { kb := 1 } } =
      some (.illShaped .capWindow) := by decide

/-- R26: P = 5 segments of 15 do not fit into 63 characters. -/
theorem test_step_refuses_illegalCfg :
    refusal (State.resetWith { Cfg.hck0 with capParityByteCount := 5 }) { op := 0b000 } =
      some .illegalCfg := by decide

/-! ### Decoding of written-out commands (R71, R82, R23) -/

theorem test_decode_b32enc :
    decode { op := 0b000, ports := { data := [0x07] } } = .ok (.b32enc [0x07]) := by decide
theorem test_decode_b32dec :
    decode { op := 0b001, ports := { text := chars ['A', 'E'] } } =
      .ok (.b32dec (chars ['A', 'E'])) := by decide
theorem test_decode_tlcorr :
    decode { op := 0b010, ports := { text := chars ['0'] } } = .ok (.tlcorr (chars ['0'])) := by
  decide
theorem test_decode_capenc :
    decode { op := 0b011, ports := { run := chars ['H'], val := [true], min := 3 } } =
      .ok (.capenc (chars ['H']) [true] 3) := by decide
theorem test_decode_capdec :
    decode { op := 0b100, ports := { run := chars ['H'], era := [true] } } =
      .ok (.capdec (chars ['H']) [true]) := by decide
theorem test_decode_capchk :
    decode { op := 0b101, ports := { res := [some 0x24, none] } } =
      .ok (.capchk [some 0x24, none]) := by decide
theorem test_decode_eramap :
    decode { op := 0b110, ports := { cera := [true], skip := 1, plen := 2, capera := [false], kb := 3,
                                     cw := [0x0A, 0x0B, 0x0C, 0x0D] } } =
      .ok (.eramap [true] 1 2 [false] 3 [0x0A, 0x0B, 0x0C, 0x0D]) := by decide
theorem test_decode_illegal :
    decode { op := 0b111, ports := { data := [0x01] } } = .ok .illegal := by decide
/-- `CAPENC.PREFIX "HCK"` under `hck0` is the command `CAPENC "HCK", 101, 3` (R87). -/
theorem test_decode_capencPrefix :
    decode (encode Cfg.hck0 (.capencPrefix (chars ['H', 'C', 'K']))) =
      .ok (.capenc (chars ['H', 'C', 'K']) (bits [1, 0, 1]) 3) := by decide
/-- `CAPENC.BYTE "A", 24` is `CAPENC "A", 00100100, 8` (R87). -/
theorem test_decode_capencByte :
    decode (encode Cfg.hck0 (.capencByte (chars ['A']) 0x24)) =
      .ok (.capenc (chars ['A']) (bits [0, 0, 1, 0, 0, 1, 0, 0]) 8) := by decide

/-- The table's words (`match` of spec/opcode_table.json). -/
theorem test_table_words :
    (List.range 8).map (decodeTableWord 8) =
      [some (.b32enc []), some (.b32dec []), some (.tlcorr []), some (.capenc [] [] 0),
        some (.capdec [] []), some (.capchk []), some (.eramap [] 0 0 [] 0 []), some .illegal] := by
  decide

/-- The first step after reset runs the word that was placed. -/
theorem test_first_step_runs_the_word :
    (match step (State.reset.withFetchWord 8 7) with
      | .next t => t.status
      | .fault _ => none
      | .refused _ => none) = some .illegalOp := by decide

/-! ### B32ENC (V7) and B32DEC (V8) -/

/-- V7: `DE AD BE EF` is `54X575Z`. -/
theorem test_b32enc_partial_symbol :
    oneStep { op := 0b000, ports := { data := [0xDE, 0xAD, 0xBE, 0xEF] } } =
      some (some .ok, some (.b32enc (chars ['5', '4', 'X', '5', '7', '5', 'Z']))) := by
  decide +kernel

/-- V2, R105: the source's ten bytes. -/
theorem test_b32enc_source_vector :
    oneStep { op := 0b000, ports := { data := [1, 2, 3, 4, 17, 170, 204, 255, 210, 1] } } =
      some (some .ok, some (.b32enc (chars ['A', 'E', 'B', 'A', 'G', 'B', 'A', 'S', 'W', 'M', 'G',
        'Q', '9', 'V', 'R', 'B']))) := by decide +kernel

/-- V8: `999R` is `FF FF`; left-over bits 0000. -/
theorem test_b32dec_accepts :
    oneStep { op := 0b001, ports := { text := chars ['9', '9', '9', 'R'] } } =
      some (some .ok, some (.b32dec [0xFF, 0xFF])) := by decide +kernel

/-- V8: `999S` has a left-over 1, `AAA` a whole symbol left over; a bad character wins over a bad tail
(`AAA%`); slot 76 (`L`) is reserved. -/
theorem test_b32dec_errors :
    [chars ['9', '9', '9', 'S'], chars ['A', 'A', 'A'], chars ['A', 'A', 'A', '%'], chars ['L']].map
        (fun text => oneStep { op := 0b001, ports := { text := text } }) =
      [some (some .unexpectedEof, none), some (some .unexpectedEof, none),
        some (some .badInput, none), some (some .badInput, none)] := by decide +kernel

/-! ### TLCORR (V10) -/

/-- V10: `LlI1`; all four become `I`. -/
theorem test_tlcorr_confusables :
    oneStep { op := 0b010, ports := { text := chars ['L', 'l', 'I', '1'] } } =
      some (some .ok, some (.tlcorr (chars ['I', 'I', 'I', 'I']) (chars ['I', 'I', 'I', 'I'])
        (bits [0, 0, 0, 0]))) := by decide +kernel

/-- V10: the code units just outside the ranges, then the range ends. -/
theorem test_tlcorr_range_ends :
    oneStep { op := 0b010, ports := { text := [0x2F, 0x3A, 0x40, 0x5B, 0x60, 0x7B, 0x61, 0x39] } } =
      some (some .ok, some (.tlcorr (chars ['A', 'A', 'A', 'A', 'A', 'A', 'a', '9'])
        (chars ['A', 'A', 'A', 'A', 'A', 'A', 'A', '9']) (bits [1, 1, 1, 1, 1, 1, 0, 0]))) := by
  decide +kernel

/-! ### CAPENC and its pseudo-operations (V11) -/

/-- V11: `AB`, 101, 2 is `Ab`, count 2: bit 2 is never consumed. -/
theorem test_capenc_threshold_met :
    oneStep { op := 0b011, ports := { run := chars ['A', 'B'], val := bits [1, 0, 1], min := 2 } } =
      some (some .ok, some (.capenc (chars ['A', 'b']) 2)) := by decide

/-- V11: `H3K`, 101, 3 has two letters: all lowercase. -/
theorem test_capenc_below_threshold :
    oneStep { op := 0b011, ports := { run := chars ['H', '3', 'K'], val := bits [1, 0, 1], min := 3 } } =
      some (some .ok, some (.capenc (chars ['h', '3', 'k']) 2)) := by decide

/-- V11, V3: the marker of kind `hck0`. -/
theorem test_capencPrefix :
    oneExec (.capencPrefix (chars ['h', 'C', 'k'])) =
      some (some .ok, some (.capenc (chars ['H', 'c', 'K']) 3)) := by decide

/-- V11, V3: segment 0 takes byte 24. -/
theorem test_capencByte :
    oneExec (.capencByte (chars ['C', 'I', 'D', 'D', 'S', '5', 'O', 'I', 'O', 'G', 'Y', 'M', 'X', 'B',
      'N']) 0x24) =
      some (some .ok, some (.capenc (chars ['c', 'i', 'D', 'd', 's', '5', 'O', 'i', 'o', 'g', 'y', 'm',
        'x', 'b', 'n']) 8)) := by decide +kernel

/-! ### CAPDEC (V12) and CAPCHK (V13) -/

/-- V12: `HKEabQ8iavqs8dw` reads E4. -/
theorem test_capdec_reads :
    oneStep (encode Cfg.hck0 (.capdec (chars ['H', 'K', 'E', 'a', 'b', 'Q', '8', 'i', 'a', 'v', 'q',
        's', '8', 'd', 'w']) (List.replicate 15 false))) =
      some (some .ok, some (.capdec (some 0xE4))) := by decide +kernel

/-- V12: an erasure on the ninth character; seven letters only. -/
theorem test_capdec_erased :
    [oneStep (encode Cfg.hck0 (.capdec (chars ['A', 'b', 'C', 'd', 'E', 'f', 'G', 'h', 'A'])
        (bits [0, 0, 0, 0, 0, 0, 0, 0, 1]))),
      oneStep (encode Cfg.hck0 (.capdec (chars ['A', 'B', 'C', 'D', 'E', 'F', 'G'])
        (bits [0, 0, 0, 0, 0, 0, 0])))] =
      [some (some .ok, some (.capdec none)), some (some .ok, some (.capdec none))] := by
  decide +kernel

/-- V13: `FF E E FF` fires, the empty sequence fires. -/
theorem test_capchk_fires :
    [oneStep { op := 0b101, ports := { res := [some 0xFF, none, none, some 0xFF] } },
      oneStep { op := 0b101 }] =
      [some (some .ok, some (.capchk [none, none, none, none] true)),
        some (some .ok, some (.capchk [] true))] := by decide

/-- V13: a mixture of 00 and FF does not fire, nor does one set bit. -/
theorem test_capchk_keeps :
    [oneStep { op := 0b101, ports := { res := [some 0x00, some 0xFF] } },
      oneStep { op := 0b101, ports := { res := [some 0x00, some 0x01, none] } }] =
      [some (some .ok, some (.capchk [some 0x00, some 0xFF] false)),
        some (some .ok, some (.capchk [some 0x00, some 0x01, none] false))] := by decide

/-! ### ERAMAP (V14) and the reserved operation (V15) -/

/-- V14, the example under another `CFG`: character 6 overlaps bytes 3 and 4. -/
theorem test_eramap_two_positions :
    oneStep { op := 0b110, ports := { cera := bits [0, 0, 0, 0, 0, 0, 1, 0], kb := 5,
                                      cw := [0x01, 0x02, 0x03, 0x04, 0x05] } } =
      some (some .ok, some (.eramap (bits [0, 0, 0, 1, 1]) [0x01, 0x02, 0x03, 0x00, 0x00] 2)) := by
  decide +kernel

/-- V14: characters 4 and 62 and one cap-parity erasure in the source's configuration: position -1 is
dropped (R163), 0, 35 and 36 are marked, 39 comes from `capera`. -/
theorem test_eramap_source :
    (match oneStep { op := 0b110, ports :=
        { cera := ((List.replicate 63 false).set 4 true).set 62 true, skip := 3, plen := 3,
          capera := bits [0, 0, 0, 1], kb := 36, cw := List.replicate 40 0xAA } } with
      | some (_, some (.eramap bera _ count)) => (erasedPositions bera, count)
      | _ => ([], 0)) = ([0, 35, 36, 39], 4) := by decide +kernel

/-- V15, R82: whatever the operands. -/
theorem test_illegal :
    oneStep { op := 0b111, ports := { data := [0x01], kb := 9 } } =
      some (some .illegalOp, none) := by decide

/-- The status codes (R200). -/
theorem test_status_codes :
    [Status.ok, .badInput, .unexpectedEof, .illegalOp, .badDataLen, .badIdLen,
      .internalGeneratedBadLen, .prefixMismatch, .tooManyErrors, .uncorrectable, .invalidKind].map
        (fun st => st.code.toNat) = [0, 1, 2, 3, 8, 9, 10, 11, 12, 13, 14] := by decide

/-- R20, R24: the result ports have a value in the state in which the command has ended, and none after the
next step or beside the next command. -/
theorem test_results_do_not_outlive_the_command :
    (match step (State.reset.present { op := 0b000, ports := { data := [0x00] } }) with
      | .next t =>
        (t.result, (t.present { op := 0b111 }).result, (t.present { op := 0b111 }).status,
          match step t with
          | .next u => (u.status, u.result)
          | .fault _ => (some .ok, none)
          | .refused _ => (some .ok, none))
      | .fault _ => (none, none, none, (none, none))
      | .refused _ => (none, none, none, (none, none))) =
      (some (.b32enc (chars ['A', 'A'])), none, none, (none, none)) := by decide +kernel

/-! ### The host's programmes, under a small `CFG` and a primitive whose parity is always zero

K = 1, B = 2, P = 0, no prefix, M = 5, so the erasure budget is 1. -/

/-- A small legal configuration. -/
def tiny : Cfg where
  keyByteCount := 1
  baseParityByteCount := 2
  capParityByteCount := 0
  prefixBytes := []
  prefixCap := []
  capSegmentCharCount := 1
  encodedCharCount := 5

/-- A primitive with `n` parity bytes, all zero, over `k` key bytes: its checksum test looks at the parity
bytes, and it restores them. -/
def zeroParity (k n : Nat) : ReedSolomon where
  encode := fun _ => List.replicate n 0x00
  correct := fun w _ => some (w.take k ++ List.replicate n 0x00)
  isCorrupted := fun w => w.drop (w.length - n) != List.replicate n 0x00

/-- A primitive that corrects nothing. -/
def neverCorrects : ReedSolomon where
  encode := fun _ => [0x00, 0x00]
  correct := fun _ _ => none
  isCorrupted := fun _ => true

/-- What a programme ends with. -/
def ended {α : Type} (o : Host.Outcome (State × Except Status α) Fault Refusal) :
    Option (Except Status α) :=
  match o with
  | .next (_, r) => some r
  | .fault _ => none
  | .refused _ => none

theorem ended_eq_some {α : Type} {o : Host.Outcome (State × Except Status α) Fault Refusal}
    {r : Except Status α} (h : ended o = some r) : ∃ t, o = .next (t, r) := by
  unfold ended at h
  split at h
  · next t r' => cases h; exact ⟨t, rfl⟩
  · cases h
  · cases h

theorem test_tiny_legal : tiny.legal = true := by decide

/-- Round trip (R191 (a)) of key `5A`: the text of `5A 00 00`, which has no letter to carry a bit. -/
theorem test_hcEncode_tiny :
    ended (hcEncode (zeroParity 1 2) [0x5A] (State.resetWith tiny)) =
      some (.ok (chars ['M', 'I', 'A', 'A', 'A'])) := by rfl

theorem test_hcDecode_tiny :
    ended (hcDecode (zeroParity 1 2) (chars ['M', 'I', 'A', 'A', 'A']) (State.resetWith tiny)) =
      some (.ok [0x5A]) := by rfl

/-- Two erasures against a budget of one (R187). -/
theorem test_hcDecode_tooManyErrors :
    ended (hcDecode (zeroParity 1 2) (chars ['%', '%', '%', 'A', 'A']) (State.resetWith tiny)) =
      some (.error .tooManyErrors) := by rfl

/-- The kind lookup (R178, R88): a table that knows one token. -/
theorem test_configOfKind :
    configOfKind (fun t => if t = [104, 99, 107, 48] then some [0x38, 0x94, 0x24] else none)
        [104, 99, 107, 48] = .ok Cfg.hck0 ∧
      configOfKind (fun _ => some [0x38, 0x94, 0x24]) [104, 99, 107, 50] = .error .invalidKind := by
  decide

/-! ### Witnesses: the hypotheses of the obligations are met -/

/-- A state in which a command stands on the port. -/
def asked (c : RawCmd) : State := State.reset.present c

theorem test_witness_DecodeAndEncodeAgree :
    (Instr.expand Cfg.hck0 (.capdec (chars ['A']) [false])).wellFormed ∧
    (Instr.expand Cfg.hck0 (.capencByte (chars ['A']) 0xFF)).wellFormed ∧
    (Instr.capdec (chars ['A']) [false]).core = true ∧
    decode { op := 0b100, ports := { run := chars ['A'], era := [false], kb := 7 } } =
      .ok (.capdec (chars ['A']) [false]) := by decide

theorem test_witness_StepRunsTheDecodedCommand :
    (∃ c, (asked { op := 0b111 }).cmd = some c ∧ (asked { op := 0b111 }).cfg.legal = true ∧
      decode c = .ok .illegal) ∧
    State.reset.cmd = none ∧
    (Cfg.legal { Cfg.hck0 with keyByteCount := 0 }) = false ∧
    ∃ c, (asked { op := 0b110, ports := { kb := 1 } }).cmd = some c ∧
      decode c = .error .capWindow :=
  ⟨⟨_, rfl, by decide, rfl⟩, rfl, by decide, ⟨_, rfl, rfl⟩⟩

theorem test_witness_EveryStepKeepsTheInvariant :
    Coherent (asked { op := 0b101 }) ∧ ∃ t, step (asked { op := 0b101 }) = .next t :=
  ⟨by decide, _, rfl⟩

theorem test_witness_ResetMeetsTheInvariant : Cfg.hcs0.legal = true ∧ tiny.legal = true := by decide

theorem test_witness_ResetIsIdleAndReady :
    ∃ s t, s.cfg = Cfg.hck0 ∧ s.status = some .illegalOp ∧ exec (.b32enc [0x01]) s = .next t :=
  ⟨raise .illegalOp State.reset, _, rfl, rfl, rfl⟩

theorem test_witness_TablesInvertEachOther : symbolOf 65 = .ok 0 ∧ symbolOf 57 = .ok 31 := by decide

theorem test_witness_CommandFrame :
    (∃ t, exec (.b32dec (chars ['A'])) State.reset = .next t) ∧
    ∃ t, exec (.capencPrefix (chars ['A'])) State.reset = .next t := ⟨⟨_, rfl⟩, _, rfl⟩

theorem test_witness_NothingCarriesOver :
    (∀ run, Instr.b32dec (chars ['A']) ≠ .capencPrefix run) ∧
    (∃ t, exec (.b32dec (chars ['A'])) State.reset = .next t) ∧
    exec (.capdec (chars ['A']) []) State.reset = .refused (.illShaped .eraLength) ∧
    ∃ t, exec (.capencPrefix (chars ['A'])) (raise .badInput State.reset) = .next t :=
  ⟨fun _ h => (nomatch h), ⟨_, rfl⟩, rfl, _, rfl⟩

theorem test_witness_StatusesByOperation :
    (∃ t, exec .illegal State.reset = .next t ∧ t.status = some .illegalOp) ∧
    (∃ t, exec (.capchk []) State.reset = .next t ∧ t.status = some .ok) ∧
    ∃ t, exec (.b32dec (chars ['%'])) State.reset = .next t ∧ t.status = some .badInput :=
  ⟨⟨_, rfl, rfl⟩, ⟨_, rfl, rfl⟩, _, rfl, rfl⟩

theorem test_witness_StatusCodesAreInjective :
    Status.illegalOp.code = Status.illegalOp.code ∧ Status.illegalOp.ofBlock = true ∧
      Status.badDataLen.ofBlock = false := by decide

theorem test_witness_IllShapedCommandsAreRefused :
    ((Instr.capdec [] [true]).expand Cfg.hck0).shapeFault = some .eraLength ∧
    ((Instr.eramap [] 0 0 [] 1 []).expand Cfg.hck0).shapeFault = some .capWindow ∧
    ((Instr.eramap [] 0 0 [] 1 [0x00]).expand Cfg.hck0).wellFormed := by decide

/-- Each clause at its boundary: one bit too few and one too many; a window one byte too long. -/
theorem test_witness_ShapeChecksByName :
    ([] : List Bit).length ≠ (chars ['A']).length ∧ (bits [0, 0]).length ≠ (chars ['A']).length ∧
    ([0x00, 0x00] : List Byte).length < 1 + (bits [1, 1]).length ∧
    (Instr.eramap [] 0 0 (bits [1, 1]) 0 [0x00, 0x00]).wellFormed := by decide

/-- The premise `wellFormed` of the statements about one operation (`B32encAlwaysOk`, `B32encClosedForm`,
`DecodeInvertsEncode`, `TlcorrAlwaysOk`, `TlcorrByCharacter`, `CapencCarriesTheBits` and the others that
have it), with empty operands and with others. -/
theorem test_witness_wellFormed :
    (Instr.b32enc []).wellFormed ∧ (Instr.b32enc [0xFF]).wellFormed ∧ (Instr.b32dec []).wellFormed ∧
    (Instr.b32dec (b32enc [0x01])).wellFormed ∧ (Instr.tlcorr (chars ['%'])).wellFormed ∧
    (Instr.capenc (chars ['A']) [] 0).wellFormed ∧
    (Instr.capenc (chars ['A']) State.reset.cfg.prefixCap 3).wellFormed ∧
    (Instr.capenc (chars ['A']) (bits8 0x24) 8).wellFormed ∧
    (Instr.capdec (chars ['A']) [true]).wellFormed ∧ (Instr.capchk [none]).wellFormed ∧
    (Instr.eramap [true] 0 0 [true] 0 [0x01]).wellFormed := by decide +kernel

theorem test_witness_B32encCornerCases :
    (chars ['A']).head? = (b32enc [0x01]).head? ∧
      (List.replicate 39 (0x00 : Byte)).length = 39 := by decide +kernel

/-- The clauses of `B32decClosedForm` at their boundaries (V8): code units 50, 91 and slot 76 are rejected,
51 and 90 are not; five bits left over (`A`) and four (`AAAA`); a left-over 1 (`AB`). -/
theorem test_witness_B32decClosedForm :
    symbolOf 50 = .error .badInput ∧ symbolOf 91 = .error .badInput ∧ symbolOf 76 = .error .badInput ∧
    symbolOf 51 = .ok 25 ∧ symbolOf 90 = .ok 24 ∧
    5 * (chars ['A']).length % 8 = 5 ∧ 5 * (chars ['A', 'A', 'A', 'A']).length % 8 = 4 ∧
    true ∉ leftOver (chars ['A', 'A', 'A', 'A']) ∧ true ∈ leftOver (chars ['A', 'B']) := by
  decide +kernel

theorem test_witness_UndecodableLengths :
    (∃ t, exec (.b32dec (chars ['A'])) State.reset = .next t) ∧
    (chars ['A']).length % 8 = 1 ∧ (chars ['A', 'A', 'A']).length % 8 = 3 := ⟨⟨_, rfl⟩, by decide, by decide⟩

theorem test_witness_AcceptedTextsAreCanonical :
    ∃ t, exec (.b32dec (chars ['A', 'E'])) State.reset = .next t ∧
      t.result = some (.b32dec [0x01]) := ⟨_, rfl, by decide +kernel⟩

theorem test_witness_CanonicalTextIsOverTheAlphabet :
    ∃ t, exec (.tlcorr (chars ['0', '%'])) State.reset = .next t ∧
      t.result = some (.tlcorr (chars ['O', 'A']) (chars ['O', 'A']) (bits [0, 1])) ∧
      (∃ u, exec (.b32dec (chars ['O', 'A'])) t = .next u) ∧
      ∃ u, exec (.tlcorr (chars ['O', 'A'])) t = .next u := ⟨_, rfl, by decide +kernel, ⟨_, rfl⟩, _, rfl⟩

/-- The clauses of R136 around the threshold: two letters against 3, three against 3. -/
theorem test_witness_CapencCarriesTheBits :
    (capenc (chars ['A', '3', 'B']) (bits [1, 0, 1]) 3).2 = 2 ∧
    (capenc (chars ['A', 'B', 'C', 'D']) (bits [1, 0, 1]) 3).2 = 3 := by decide

theorem test_witness_CaseBitConvention :
    2 ≤ (capenc (chars ['A', 'B']) (bits [1, 0, 1]) 2).2 := by decide

/-- Seven letters, eight letters, and an erased character (R141). -/
theorem test_witness_CapdecReadsTheCase :
    (chars ['A', 'B', 'C', 'D', 'E', 'F', 'G']).countP isAlpha = 7 ∧
    (chars ['A', 'B', 'C', 'D', 'E', 'F', 'G', 'h']).countP isAlpha = 8 ∧
    true ∉ bits [0, 0, 0, 0, 0, 0, 0, 0] ∧ true ∈ bits [0, 1] ∧
    (Instr.capdec (chars ['A', 'B', 'C', 'D', 'E', 'F', 'G', 'h'])
      (bits [0, 0, 0, 0, 0, 0, 0, 0])).wellFormed := by decide

theorem test_witness_CapdecReadsBackCapenc :
    ∃ t, exec (.capencByte (chars ['a', 'b', 'c', 'd', 'e', 'f', 'g', 'h']) 0x80) State.reset =
        .next t ∧
      t.result = some (.capenc (chars ['A', 'b', 'c', 'd', 'e', 'f', 'g', 'h']) 8) ∧
      (Instr.capdec (chars ['A', 'b', 'c', 'd', 'e', 'f', 'g', 'h'])
        (List.replicate 8 false)).wellFormed := ⟨_, rfl, by decide +kernel, by decide⟩

theorem test_witness_CapchkHeuristic :
    casingLost [some 0x00, none] = true ∧ casingLost [some 0xFF] = true ∧
      casingLost [some 0x00, some 0xFF] = false := by decide

theorem test_witness_CapchkIsIdempotent :
    ∃ t, exec (.capchk [some 0xFF]) State.reset = .next t ∧
      t.result = some (.capchk [none] true) := ⟨_, rfl, by decide⟩

/-- An erased and a kept position of one command (R161). -/
theorem test_witness_EramapClosedForm :
    ErasedBy [true, false] 0 0 [] 0 0 ∧ ¬ ErasedBy [true, false] 0 0 [] 0 1 ∧
    (Instr.eramap [true, false] 0 0 [] 0 [0x05, 0x06]).wellFormed := by
  refine ⟨.inr ⟨0, by decide, by decide, by decide⟩, ?_, by decide⟩
  rintro (⟨g, hg, _⟩ | ⟨i, _, hi, h⟩)
  · simp at hg
  · have : i = 0 := by
      rcases i with _ | _ | i
      · rfl
      · simp at hi
      · simp at hi
    subst this; omega

/-- The ranges of `EramapSourceCorners` meet at 3, 4, 5, 61 and 62. -/
theorem test_witness_EramapSourceCorners :
    (0 < 63 ∧ 3 < 63 ∧ 4 < 63 ∧ 5 < 63 ∧ 61 < 63 ∧ 62 < 63) ∧
    [0, 3, 4, 5, 6, 61, 62].map (fun i =>
      erasedPositions (erasureSet ((List.replicate 63 false).set i true) 3 3
        (List.replicate 4 false) 36 40)) =
      [[], [], [0], [0], [0, 1], [35], [35, 36]] := by decide +kernel

theorem test_witness_ReservedOperation : State.reset.cfg.legal = true := by decide

theorem test_witness_SourceConfigurationIsLegal : ([0x38, 0x94, 0x24] : List Byte).length = 3 := by
  decide

theorem test_witness_EveryWellFormedCommandIsServed :
    State.reset.cfg = Cfg.hck0 ∧ Cfg.hck0.legal = true ∧
      ((Instr.capencByte (chars ['A']) 0x01).expand Cfg.hck0).wellFormed := by decide

theorem test_witness_LengthChecksComeFirst :
    ([] : List Byte).length ≠ State.reset.cfg.keyByteCount ∧
    (List.replicate 33 (0x00 : Byte)).length ≠ State.reset.cfg.keyByteCount ∧
    (List.replicate 62 (65 : CodeUnit)).length ≠ State.reset.cfg.encodedCharCount ∧
    (List.replicate 64 (65 : CodeUnit)).length ≠ State.reset.cfg.encodedCharCount := by decide

/-- All that the round-trip obligations assume of the primitive holds of this one, in the source's
configuration: `EncodedKeysDecode` and `CasingLossIsTolerated`. -/
theorem test_witness_EncodedKeysDecode :
    ([0x38, 0x94, 0x24] : List Byte).length = 3 ∧ State.reset.cfg = Cfg.source [0x38, 0x94, 0x24] ∧
    (zeroParity 32 8).ParityLength State.reset.cfg ∧ (zeroParity 32 8).AcceptsCodewords ∧
    (zeroParity 32 8).RepairsCapErasures State.reset.cfg ∧
    (List.replicate 32 (0x00 : Byte)).length = 32 := by
  refine ⟨rfl, rfl, fun _ => rfl, fun _ => by simp [zeroParity], ?_, rfl⟩
  intro key w erased hk hw _ her hsame _
  have hk : key.length = 32 := hk
  have hlen : w.length = 40 := by rw [hw]; simp [zeroParity, hk]
  have htake : w.take 32 = key := by
    apply List.ext_getElem?; intro b
    by_cases hb : b < 32
    · have hne : b ∉ erased := fun h => by
        have : 32 + 4 ≤ b := (her b h).1
        omega
      rw [List.getElem?_take_of_lt hb, hsame b (by omega) hne, List.getElem?_append_left (by omega)]
    · rw [List.getElem?_eq_none (by simp; omega), List.getElem?_eq_none (by omega)]
  show some _ = some _
  rw [htake]; rfl

/-! The vector V5 and programmes P1 and P8: the all-zero key under `hcs0`, with a primitive of which every
assumption of the obligations holds. -/

/-- The all-zero key. -/
def zeroKey : List Byte := List.replicate 32 0x00

/-- Its codeword, all zero under any linear code (V5). -/
def zeroWord : List Byte := zeroKey ++ List.replicate 8 0x00

/-- The full buffer of its string: the prefix `38 A2 24`, then zeros, with one byte replaced. -/
def zeroFull (seventh : Byte) : List Byte := [0x38, 0xA2, 0x24, 0x00, 0x00, 0x00, seventh] ++
  List.replicate 32 0x00

/-- Its string, `HcSci` and 58 letters `a`, with the fifth and the eleventh character given. -/
def zeroString (fifth eleventh : Char) : List CodeUnit :=
  chars ['H', 'c', 'S', 'c', fifth, 'a', 'a', 'a', 'a', 'a', eleventh] ++ List.replicate 52 97

/-- One primitive of which every assumption holds. By it, and by any whose parity of the all-zero key is zero,
`HC.ENCODE` gives the string of V5 (P1): the premises of `DamageWithinBudgetIsCorrected`,
`CaseAndConfusablesAreTolerated` and `ErasureBoundary` on primitive, key and state, together. -/
theorem test_witness_primitive : (State.resetWith Cfg.hcs0).cfg.legal = true ∧
    (State.resetWith Cfg.hcs0).cfg = Cfg.source [0x38, 0xA2, 0x24] ∧
    zeroKey.length = Cfg.hcs0.keyByteCount ∧
    ∃ rs : ReedSolomon, rs.ParityLength Cfg.hcs0 ∧ rs.AcceptsCodewords ∧
      rs.AcceptsOnlyCodewords Cfg.hcs0 ∧ rs.CorrectsErrorsAndErasures Cfg.hcs0 ∧
      rs.CorrectsErasures Cfg.hcs0 ∧ rs.RepairsCapErasures Cfg.hcs0 ∧
      zeroKey ++ rs.encode zeroKey = zeroWord ∧
      ∃ t, hcEncode rs zeroKey (State.resetWith Cfg.hcs0) =
        .next (t, .ok (zeroString 'i' 'a')) := by
  obtain ⟨rs, h1, h2, h3, h4, h5⟩ := exists_reedSolomon Cfg.hcs0 (by decide)
  have h6 := correctsErasures_of_correctsErrorsAndErasures h4
  refine ⟨by decide, rfl, rfl, rs, h1, h2, h3, h4, h6, repairsCapErasures_of_correctsErasures h1 h6,
    congrArg (zeroKey ++ ·) h5, ?_⟩
  have he : hcEncode rs zeroKey = hcEncode (zeroParity 32 8) zeroKey := by
    funext s
    simp only [hcEncode, show rs.encode zeroKey = List.replicate 8 0x00 from h5]
    rfl
  rw [he]
  exact ended_eq_some (by decide +kernel)

/-- Two strings that differ from each other as a test on pairs of characters allows. -/
theorem forall_of_zip {sent received : List CodeUnit} {P : CodeUnit → CodeUnit → Prop}
    (test : CodeUnit × CodeUnit → Bool) (h : (sent.zip received).all test = true)
    (hP : ∀ c d, test (c, d) = true → P c d) (i : Nat) (c d : CodeUnit) (hc : sent[i]? = some c)
    (hd : received[i]? = some d) : P c d :=
  hP c d (List.all_eq_true.1 h _
    (List.mem_iff_getElem?.2 ⟨i, List.getElem?_zip_eq_some.2 ⟨hc, hd⟩⟩))

/-- The premises of `DamageWithinBudgetIsCorrected` on the received string (the others are met by
`test_witness_primitive`), at the budget: the string itself has four erasures, by the
casing-lost heuristic (P8). With `I` for `i` and `B` for `a` there are no erasures, and two wrong bytes. -/
theorem test_witness_DamageWithinBudgetIsCorrected :
    (zeroString 'I' 'B').length = (zeroString 'i' 'a').length ∧
    (ReachesCorrection Cfg.hcs0 (zeroString 'i' 'a') (zeroFull 0x00) ∧
      damage Cfg.hcs0 zeroWord (zeroString 'i' 'a') (zeroFull 0x00) = erasureBudget Cfg.hcs0) ∧
    ReachesCorrection Cfg.hcs0 (zeroString 'I' 'B') (zeroFull 0x02) ∧
      erasureCount (receivedErasures Cfg.hcs0 (zeroString 'I' 'B')) = 0 ∧
      damage Cfg.hcs0 zeroWord (zeroString 'I' 'B') (zeroFull 0x02) = 2 := by
  unfold ReachesCorrection; decide +kernel

/-- `1` for `i`, `A` for `a`: the premise of `CaseAndConfusablesAreTolerated` on the received string, beside
`test_witness_primitive`. -/
theorem test_witness_CaseAndConfusablesAreTolerated :
    CaseOrConfusables (zeroString 'i' 'a') (zeroString '1' 'A') := by
  refine ⟨rfl, forall_of_zip (fun p => p.2 == 49 && toUpper p.1 == 73 || toUpper p.2 == toUpper p.1)
    (by decide +kernel) fun c d h => ?_⟩
  simp only [Bool.or_eq_true, Bool.and_eq_true, beq_iff_eq] at h
  rcases h with ⟨hd, hc⟩ | h
  · exact .inr (.inr (.inl ⟨hc, .inl hd⟩))
  · exact .inl h

/-- The two clauses of `ErasureBoundary` where they meet, beside `test_witness_primitive`: four erasures of the undamaged string (P8), and five
with one more, by the unmappable `%`. -/
theorem test_witness_ErasureBoundary :
    (OnlyErased Cfg.hcs0 (zeroString 'i' 'a') (zeroString 'i' 'a') ∧
      erasureCount (receivedErasures Cfg.hcs0 (zeroString 'i' 'a')) = erasureBudget Cfg.hcs0) ∧
    OnlyErased Cfg.hcs0 (zeroString 'i' 'a') (zeroString 'i' '%') ∧
      erasureCount (receivedErasures Cfg.hcs0 (zeroString 'i' '%')) = erasureBudget Cfg.hcs0 + 1 := by
  refine ⟨⟨⟨rfl, fun i c d hc hd => .inl (Option.some.inj (hd.symm.trans hc))⟩, by decide +kernel⟩,
    ⟨rfl, fun i => forall_of_zip (fun p => p.2 == p.1 || p.2 == 37 && toUpper p.1 == 65)
      (by decide +kernel) (fun c d h => ?_) i⟩, by decide +kernel⟩
  simp only [Bool.or_eq_true, Bool.and_eq_true, beq_iff_eq] at h
  rcases h with h | ⟨rfl, hc⟩
  · exact .inl h
  · exact .inr ⟨.inl (by decide), .inr hc⟩

theorem test_witness_ResultPortsLastOneCommand :
    (∃ t, step (asked { op := 0b111 }) = .next t) ∧ State.reset.cmd = none := ⟨⟨_, rfl⟩, rfl⟩

/-- M - 1 and M + 1 characters, and a key that encodes. -/
theorem test_witness_LengthInvariants :
    (List.replicate 4 (65 : CodeUnit)).length ≠ (State.resetWith tiny).cfg.encodedCharCount ∧
    (List.replicate 6 (65 : CodeUnit)).length ≠ (State.resetWith tiny).cfg.encodedCharCount ∧
    ∃ t id, hcEncode (zeroParity 1 2) [0x5A] (State.resetWith tiny) = .next (t, .ok id) := by
  refine ⟨by decide, by decide, ?_⟩
  obtain ⟨t, h⟩ := ended_eq_some test_hcEncode_tiny
  exact ⟨t, _, h⟩

theorem test_witness_EncodeRendersTheKey :
    tiny.legal = true ∧ (zeroParity 1 2).ParityLength tiny ∧
      ([0x5A] : List Byte).length = tiny.keyByteCount :=
  ⟨by decide, fun _ => rfl, rfl⟩

theorem test_witness_DecodeEndsAndNeverWithBadInput :
    State.reset.cfg.legal = true ∧
    ∃ t, hcDecode (zeroParity 1 2) (chars ['%', '%', '%', 'A', 'A']) (State.resetWith tiny) =
      .next (t, .error .tooManyErrors) := ⟨by decide, ended_eq_some rfl⟩

/-- The three ways on from the analysis (R188): no erasure and no mismatch; an erasure that is corrected;
one that is not. -/
theorem test_witness_BudgetAndFastPath :
    (∃ t a, hcAnalyse (chars ['A', 'A', 'A', 'A', 'A']) (State.resetWith tiny) = .next (t, .ok a) ∧
      a.count = 0 ∧ (zeroParity 1 2).isCorrupted a.cw = false) ∧
    (∃ t a, hcAnalyse (chars ['%', 'A', 'A', 'A', 'A']) (State.resetWith tiny) = .next (t, .ok a) ∧
      a.count ≠ 0 ∧
      (∃ r, (zeroParity 1 2).correct a.cw (erasedPositions a.bera) = some r) ∧
      neverCorrects.correct a.cw (erasedPositions a.bera) = none) := by
  refine ⟨?_, ?_⟩
  · obtain ⟨t, h⟩ := ended_eq_some (r := .ok { cw := [0, 0, 0], bera := bits [0, 0, 0], count := 0 })
      (o := hcAnalyse (chars ['A', 'A', 'A', 'A', 'A']) (State.resetWith tiny)) rfl
    exact ⟨t, _, h, rfl, rfl⟩
  · obtain ⟨t, h⟩ := ended_eq_some (r := .ok { cw := [0, 0, 0], bera := bits [1, 0, 0], count := 1 })
      (o := hcAnalyse (chars ['%', 'A', 'A', 'A', 'A']) (State.resetWith tiny)) rfl
    exact ⟨t, _, h, by decide, ⟨_, rfl⟩, rfl⟩

/-- The budget is met by one erasure and exceeded by two. -/
theorem test_witness_BudgetAndFastPath_eramap :
    slice ([0, 0, 0] : List Byte) 0 tiny.prefixBytes.length = tiny.prefixBytes ∧
    (∃ t, issue (.eramap (bits [1, 0, 0, 0, 0]) 0 0 [] 3 (assembleCodeword tiny [0, 0, 0] []))
      (State.resetWith tiny) = .next (t, .ok (.eramap (bits [1, 0, 0]) [0, 0, 0] 1))) ∧
    (∃ t, issue (.eramap (bits [1, 1, 0, 0, 0]) 0 0 [] 3 (assembleCodeword tiny [0, 0, 0] []))
      (State.resetWith tiny) = .next (t, .ok (.eramap (bits [1, 1, 0]) [0, 0, 0] 2))) :=
  ⟨rfl, ended_eq_some rfl, ended_eq_some rfl⟩

end Sys2Proof.Tests
end

section
/-! PROOF. No scratch state survives a command (spec/10_state.md rule R37). A command is its expansion under
`CFG`, checked for shape and answered (`exec_eq`); the state enters only through `CFG`, and through the
registers that no result port shows. -/

namespace Sys2Proof.Machine

/-! ### What of the state a command reads -/

/-- Only `CAPENC.PREFIX` takes an operand from `CFG` (R87). -/
theorem expand_eq_expand_of_ne_capencPrefix {i : Instr} (h : ∀ run, i ≠ .capencPrefix run)
    (cfg cfg' : Cfg) : i.expand cfg = i.expand cfg' := by
  cases i with
  | capencPrefix run => exact absurd rfl (h run)
  | _ => rfl

/-! ### What of a command's end the state shows -/

theorem deliver_status_eq (r : Except Status Results) (s t : State) :
    (deliver r t).status = (deliver r s).status := by
  cases r <;> rfl

theorem deliver_result_eq (r : Except Status Results) (s t : State) :
    (deliver r t).result = (deliver r s).result := by
  cases r <;> rfl

/-! ### Refusals, beside `serve_eq_next_iff` and `exec_eq_next_iff` -/

/-- A refusal does not depend on the state in which the command would have ended. -/
theorem serve_eq_refused_iff {i : Instr} {t : State} {r : Refusal} :
    serve i t = .refused r ↔ ∃ f, i.shapeFault = some f ∧ r = .illShaped f := by
  rcases serve_cases i t with ⟨hw, h⟩ | ⟨f, hf, h⟩
  · simp [h, show i.shapeFault = none from hw]
  · simp [h, hf, eq_comm]

theorem exec_eq_refused_iff {i : Instr} {s : State} {r : Refusal} :
    exec i s = .refused r ↔ ∃ f, (i.expand s.cfg).shapeFault = some f ∧ r = .illShaped f := by
  rw [exec_eq, serve_eq_refused_iff]

/-! ### The obligation -/

/-- Settles O9: under the two premises the instruction expands to the same command in both states, and the
answer and the refusal are functions of that command. -/
theorem nothingCarriesOver : Obligations.NothingCarriesOver := by
  intro i s t hread
  have hexp : i.expand t.cfg = i.expand s.cfg := by
    rcases hread with hcfg | hne
    · rw [hcfg]
    · exact expand_eq_expand_of_ne_capencPrefix hne _ _
  constructor
  · intro s' hs
    obtain ⟨hw, rfl⟩ := exec_eq_next_iff.mp hs
    refine ⟨deliver (answer (i.expand s.cfg)) t, ?_, deliver_status_eq _ s t, deliver_result_eq _ s t⟩
    exact exec_eq_next_iff.mpr ⟨hexp ▸ hw, by rw [hexp]⟩
  · intro r hr
    rw [exec_eq_refused_iff] at hr ⊢
    rwa [hexp]

end Sys2Proof.Machine
end

section
/-! PROOF. The pseudo-operations (spec/30_encoding.md rule R87): every instruction does what its expansion
does, and a pseudo-operation expands to the `CAPENC` the rule names. -/

namespace Sys2Proof.Machine

/-- An expansion is never a pseudo-operation, so it expands to itself under any `CFG`. -/
@[simp] theorem expand_expand (cfg cfg' : Cfg) (i : Instr) :
    (i.expand cfg).expand cfg' = i.expand cfg := by
  cases i <;> rfl

/-- A command and its expansion have the same outcome, refusals included. -/
theorem exec_expand (i : Instr) (s : State) : exec (i.expand s.cfg) s = exec i s := by
  rw [exec_eq (i.expand s.cfg), expand_expand, ← exec_eq i]

theorem expand_capencPrefix (cfg : Cfg) (run : List CodeUnit) :
    (Instr.capencPrefix run).expand cfg = .capenc run cfg.prefixCap 3 := rfl

theorem expand_capencByte (cfg : Cfg) (run : List CodeUnit) (b : Byte) :
    (Instr.capencByte run b).expand cfg = .capenc run (bits8 b) 8 := rfl

/-- Settles O26: each pseudo-operation is replaced by its expansion, which is the `CAPENC` of the rule. -/
theorem pseudoOperationsAreCapenc : Obligations.PseudoOperationsAreCapenc := by
  constructor
  · intro run s
    rw [← exec_expand (.capencPrefix run) s, expand_capencPrefix]
  · intro run b s
    rw [← exec_expand (.capencByte run b) s, expand_capencByte]

end Sys2Proof.Machine
end

section
/-! PROOF. What `B32ENC` answers (spec/40_base32_encoder.md rules R101 to R103): its accumulator loop, read off as
character `i` from stream bits `5i` to `5i + 4`. -/

namespace Sys2Proof.Machine

/-! ### The five bits of a character -/

/-- The stream counts as extended by zeros, so zeros at its end change no character. -/
theorem fiveBits_append_replicate_false (stream : List Bit) (pad i : Nat) :
    fiveBits (stream ++ List.replicate pad false) i = fiveBits stream i := by
  have getD_eq (n : Nat) : (stream ++ List.replicate pad false).getD n false = stream.getD n false := by
    rcases lt_or_ge n stream.length with h | h
    · rw [List.getD_append _ _ _ _ h]
    · rw [List.getD_append_right _ _ _ _ h, List.getD_eq_default _ _ h]
      simp
  simp only [fiveBits, getD_eq]

theorem fiveBits_symbolBits_append_zero (v : Symbol) (rest : List Bit) :
    fiveBits (symbolBits v ++ rest) 0 = symbolBits v := rfl

theorem fiveBits_symbolBits_append_succ (v : Symbol) (rest : List Bit) (i : Nat) :
    fiveBits (symbolBits v ++ rest) (i + 1) = fiveBits rest i := by
  have getD_eq (t : Nat) :
      (symbolBits v ++ rest).getD (5 * (i + 1) + t) false = rest.getD (5 * i + t) false := by
    rw [List.getD_append_right _ _ _ _ (by simp; omega), symbolBits_length]
    congr 1
    omega
  simp only [fiveBits, getD_eq]

/-! ### A text of symbols, character by character -/

theorem alph_getElem?_bitsToNat_symbolBits (v : Symbol) :
    alph[bitsToNat (symbolBits v)]? = some (sym v) := by
  revert v; decide +kernel

/-- Character `i` of a text of symbols is the `ALPH` entry of bits `5i` to `5i + 4` of its stream (R54). -/
theorem getElem?_eq_alph_fiveBits_symbolStream {text : List CodeUnit}
    (hv : ∀ c ∈ text, ∃ v, c = sym v) {i : Nat} (hi : i < text.length) :
    text[i]? = alph[bitsToNat (fiveBits (symbolStream text) i)]? := by
  induction text generalizing i with
  | nil => simp at hi
  | cons c cs ih =>
    obtain ⟨v, rfl⟩ := hv c (by simp)
    rw [symbolStream_sym_cons]
    cases i with
    | zero =>
      rw [fiveBits_symbolBits_append_zero, alph_getElem?_bitsToNat_symbolBits, List.getElem?_cons_zero]
    | succ i =>
      rw [fiveBits_symbolBits_append_succ, List.getElem?_cons_succ]
      exact ih (fun c hc => hv c (by simp [hc])) (by simpa using hi)

/-! ### B32ENC -/

/-- All that `B32ENC` computes: a text of symbols whose stream is that of the data and at most four zeros. -/
theorem b32enc_spec (data : List Byte) :
    ∃ pad, pad ≤ 4 ∧ symbolStream (b32enc data) = bitstream data ++ List.replicate pad false ∧
      5 * (b32enc data).length = 8 * data.length + pad ∧ ∀ c ∈ b32enc data, ∃ v, c = sym v := by
  simpa [b32enc, show emptyBuffer.nbits = 0 from rfl] using
    b32encFrom_spec emptyBuffer data (by decide) (by decide)

theorem b32enc_length (data : List Byte) : (b32enc data).length = renderedLength data.length := by
  obtain ⟨pad, hpad, -, hlen, -⟩ := b32enc_spec data
  unfold renderedLength
  omega

theorem b32enc_getElem? {data : List Byte} {i : Nat} (hi : i < (b32enc data).length) :
    (b32enc data)[i]? = alph[bitsToNat (fiveBits (bitstream data) i)]? := by
  obtain ⟨pad, -, hstream, -, hsym⟩ := b32enc_spec data
  rw [getElem?_eq_alph_fiveBits_symbolStream hsym hi, hstream, fiveBits_append_replicate_false]

/-- Every well-formed `B32ENC` completes with the text of R101's loop; no path raises an error (R103). -/
theorem exec_b32enc {data : List Byte} (h : (Instr.b32enc data).wellFormed) (s : State) :
    exec (.b32enc data) s = .next (complete (.b32enc (b32enc data)) s) :=
  exec_eq_next_iff.2 ⟨h, rfl⟩

/-- Settles O15: the text is that of R101's loop, whose stream is the data's with zeros at the end. -/
theorem b32encClosedForm : Obligations.B32encClosedForm := by
  intro data s h
  exact ⟨b32enc data, exec_b32enc h s, b32enc_length data, fun _ => b32enc_getElem?⟩

/-- Settles O14: `B32ENC` ends by `complete`, which writes `OK` and the text. -/
theorem b32encAlwaysOk : Obligations.B32encAlwaysOk := by
  intro data s h
  exact ⟨complete (.b32enc (b32enc data)) s, b32enc data, exec_b32enc h s, rfl, rfl⟩

end Sys2Proof.Machine
end

section
/-! PROOF. What `B32DEC` answers (spec/41_base32_decoder.md rules R111 to R113): a rejected character ends it
whatever the tail; a text of symbols is cut into whole bytes and a left-over tail, which decides. -/

namespace Sys2Proof.Machine

/-! ### The character tests -/

theorem symbolOf_eq_badInput_of_rejected {c : CodeUnit} (h : rejected c) :
    symbolOf c = .error .badInput := by
  unfold symbolOf
  split
  · rfl
  · next hrange =>
    have hslot : inv.getD (c.toNat - 51) none = none := by
      rcases h with hlow | hhigh | hslot
      · exact absurd (.inl hlow) hrange
      · exact absurd (.inr hhigh) hrange
      · exact hslot
    rw [hslot]

theorem eq_sym_of_not_rejected {c : CodeUnit} (h : ¬ rejected c) : ∃ v, c = sym v := by
  obtain ⟨hlow, hhigh, hslot⟩ : ¬ c.toNat < 51 ∧ ¬ 90 < c.toNat ∧
      inv.getD (c.toNat - 51) none ≠ none := by simpa only [rejected, not_or] using h
  obtain ⟨v, hv⟩ := Option.ne_none_iff_exists'.1 hslot
  refine ⟨v, eq_sym_of_symbolOf ?_⟩
  rw [symbolOf, if_neg (not_or.2 ⟨hlow, hhigh⟩), hv]

theorem b32dec_of_mem_rejected {text : List CodeUnit} (h : ∃ c ∈ text, rejected c) :
    b32dec text = .error .badInput := by
  obtain ⟨c, hmem, hc⟩ := h
  exact b32decFrom_badInput emptyBuffer hmem (symbolOf_eq_badInput_of_rejected hc)

/-! ### The bytes and the tail -/

/-- Bits after the whole bytes do not change byte `j`. -/
theorem slice_bitstream_append {data : List Byte} {j : Nat} (hj : j < data.length) (rest : List Bit) :
    slice (bitstream data ++ rest) (8 * j) 8 = slice (bitstream data) (8 * j) 8 := by
  have hlen := bitstream_length data
  rw [slice, slice, List.drop_append_of_le_length (by omega),
    List.take_append_of_le_length (by rw [List.length_drop]; omega)]

/-- All that `B32DEC` computes of a text of symbols: its stream is whole bytes and the left-over bits, and
the tail tests (R113) on these decide. -/
theorem b32dec_of_symbols {text : List CodeUnit} (hv : ∀ c ∈ text, ∃ v, c = sym v) :
    ∃ data : List Byte, symbolStream text = bitstream data ++ leftOver text ∧
      data.length = 5 * text.length / 8 ∧
      b32dec text = if 5 * text.length % 8 < 5 ∧ true ∉ leftOver text then .ok data
        else .error .unexpectedEof := by
  obtain ⟨data, rest, hstream, hrest, hdec⟩ :=
    b32decFrom_spec emptyBuffer text (by decide) (by decide) hv
  rw [bufferBits_empty, List.nil_append] at hstream
  have hbits : 8 * data.length + rest.length = 5 * text.length := by
    rw [← symbolStream_length hv, hstream, List.length_append, bitstream_length]
  have hdata : data.length = 5 * text.length / 8 := by omega
  have htail : leftOver text = rest := by
    rw [leftOver, ← hdata, ← bitstream_length, hstream, List.drop_left]
  have hcount : rest.length = 5 * text.length % 8 := by omega
  exact ⟨data, by rw [htail, hstream], hdata, by rw [b32dec, hdec, htail, hcount]⟩

/-! ### The obligation -/

/-- A well-formed `B32DEC` ends as the loop of R111 answers. -/
theorem exec_b32dec {text : List CodeUnit} (h : (Instr.b32dec text).wellFormed) (s : State) :
    exec (.b32dec text) s = .next (deliver ((b32dec text).map .b32dec) s) :=
  exec_eq_next_iff.2 ⟨h, rfl⟩

/-- Settles O18: a rejected character decides before the tail is looked at; a text of symbols is its bytes
and its left-over bits, and the tail tests on these decide. -/
theorem b32decClosedForm : Obligations.B32decClosedForm := by
  intro text s h
  rw [exec_b32dec h s]
  refine ⟨fun hbad => by rw [b32dec_of_mem_rejected hbad]; rfl, fun hgood => ?_⟩
  obtain ⟨data, hstream, hlen, hdec⟩ := b32dec_of_symbols fun c hc => eq_sym_of_not_rejected (hgood c hc)
  constructor
  · intro htail
    have hnot : ¬ (5 * text.length % 8 < 5 ∧ true ∉ leftOver text) := by
      rintro ⟨hfew, hzero⟩
      exact htail.elim (Nat.not_le_of_lt hfew) hzero
    rw [hdec, if_neg hnot]
    rfl
  · intro hfew hzero
    refine ⟨data, by rw [hdec, if_pos ⟨hfew, hzero⟩]; rfl, hlen, fun j hj => ?_⟩
    rw [hstream, slice_bitstream_append hj, getElem?_eq_slice_bitstream hj]

end Sys2Proof.Machine
end

section
/-! PROOF. The erasure budget, the fast path and the correction of `HC.DECODE` (spec/45_host_pipeline.md rules
R187, R188): steps DE1 to DE8 leave `CFG` alone, so the budget that step DE9 tests is that of the instance, and
what the analysis arrives at is handed to DE10 and DE11. -/

namespace Sys2Proof.Machine

/-! ### Programmes that end with a value -/

/-- Of the two ends of a sequence (`andThen_next_cases`), the one with a value. -/
theorem andThen_eq_ok {α β : Type} {m : Programme α} {f : α → Programme β} {s t : State} {b : β}
    (h : andThen m f s = .next (t, .ok b)) :
    ∃ u a, m s = .next (u, .ok a) ∧ f a u = .next (t, .ok b) := by
  rcases andThen_next_cases h with ⟨e, _, herr⟩ | hok
  · cases herr
  · exact hok

/-- Step DE3 leaves `CFG` alone. -/
theorem readSegments_cfg {cfg : Cfg} {corr : List CodeUnit} {cera : List Bit} {n g : Nat}
    {s t : State} {res : List OptByte}
    (h : readSegments cfg corr cera n g s = .next (t, .ok res)) : t.cfg = s.cfg := by
  induction n generalizing g s t res with
  | zero => cases h; rfl
  | succ n ih =>
    obtain ⟨u, _, hissue, h⟩ := andThen_eq_ok h
    obtain ⟨v, _, hrest, h⟩ := andThen_eq_ok h
    cases h
    exact (ih hrest).trans (issue_cfg hissue)

/-! ### The erasure budget (R187) -/

/-- Step DE9 once `ERAMAP` has answered: its count is held against the budget. -/
theorem analyseCodeword_of_eramap {cfg : Cfg} {cera : List Bit} {res : List OptByte}
    {full : List Byte} {s t : State} {bera : List Bit} {cwOut : List Byte} {count : Nat}
    (hp : slice full 0 cfg.prefixBytes.length = cfg.prefixBytes)
    (h : issue (.eramap cera cfg.prefixCap.length cfg.prefixBytes.length (res.map Option.isNone)
        (cfg.keyByteCount + cfg.baseParityByteCount) (assembleCodeword cfg full res)) s =
      .next (t, .ok (.eramap bera cwOut count))) :
    analyseCodeword cfg cera res full s =
      if erasureBudget cfg < count then .next (t, .error .tooManyErrors)
      else .next (t, .ok { cw := cwOut, bera := bera, count := count }) := by
  rw [analyseCodeword, if_neg (not_not.2 hp), andThen_ok h]
  exact ite_programme _ _ _ _

/-- A codeword comes out of steps DE6 to DE9 only within the budget. -/
theorem analyseCodeword_count_le {cfg : Cfg} {cera : List Bit} {res : List OptByte}
    {full : List Byte} {s t : State} {a : Analysis}
    (h : analyseCodeword cfg cera res full s = .next (t, .ok a)) : a.count ≤ erasureBudget cfg := by
  unfold analyseCodeword at h
  split at h
  · cases h
  · obtain ⟨u, r, _, h⟩ := andThen_eq_ok h
    split at h
    · cases h
    · next hbudget =>
      cases h
      exact Nat.le_of_not_lt hbudget

/-- All that holds where steps DE1 to DE9 arrive at a codeword: `CFG` is as it was, and the count is within
its budget. -/
theorem hcAnalyse_ok {id : List CodeUnit} {s t : State} {a : Analysis}
    (h : hcAnalyse id s = .next (t, .ok a)) : t.cfg = s.cfg ∧ a.count ≤ erasureBudget s.cfg := by
  unfold hcAnalyse at h
  split at h
  · cases h
  · obtain ⟨s₁, tl, htl, h⟩ := andThen_eq_ok h
    obtain ⟨s₂, res, hres, h⟩ := andThen_eq_ok h
    obtain ⟨s₃, chk, hchk, h⟩ := andThen_eq_ok h
    obtain ⟨s₄, dec, hdec, h⟩ := andThen_eq_ok h
    refine ⟨?_, analyseCodeword_count_le h⟩
    calc t.cfg = s₄.cfg := analyseCodeword_cfg h
      _ = s₃.cfg := issue_cfg hdec
      _ = s₂.cfg := issue_cfg hchk
      _ = s₁.cfg := readSegments_cfg hres
      _ = s.cfg := issue_cfg htl

/-! ### The fast path and the correction (R188) -/

/-- Where the analysis arrives at a codeword, steps DE10 and DE11 alone decide the end. -/
theorem hcDecode_of_hcAnalyse {id : List CodeUnit} {s t : State} {a : Analysis} (rs : ReedSolomon)
    (h : hcAnalyse id s = .next (t, .ok a)) :
    hcDecode rs id s = .next (t, correctedKey rs t.cfg a) :=
  andThen_ok h

theorem correctedKey_of_clean {rs : ReedSolomon} {a : Analysis} (cfg : Cfg) (hcount : a.count = 0)
    (hclean : rs.isCorrupted a.cw = false) :
    correctedKey rs cfg a = .ok (a.cw.take cfg.keyByteCount) :=
  if_pos ⟨hcount, hclean⟩

/-- An erasure or a mismatch rules the fast path out. -/
theorem not_clean_of_damaged {rs : ReedSolomon} {a : Analysis}
    (h : a.count ≠ 0 ∨ rs.isCorrupted a.cw = true) :
    ¬ (a.count = 0 ∧ rs.isCorrupted a.cw = false) := by
  rintro ⟨hzero, hclean⟩
  rcases h with hne | hbad
  · exact hne hzero
  · exact absurd hbad (by simp [hclean])

theorem correctedKey_of_corrected {rs : ReedSolomon} {a : Analysis} {r : List Byte} (cfg : Cfg)
    (h : a.count ≠ 0 ∨ rs.isCorrupted a.cw = true)
    (hr : rs.correct a.cw (erasedPositions a.bera) = some r) :
    correctedKey rs cfg a = .ok (r.take cfg.keyByteCount) := by
  rw [correctedKey, if_neg (not_clean_of_damaged h), hr]

theorem correctedKey_of_uncorrectable {rs : ReedSolomon} {a : Analysis} (cfg : Cfg)
    (h : a.count ≠ 0 ∨ rs.isCorrupted a.cw = true)
    (hr : rs.correct a.cw (erasedPositions a.bera) = none) :
    correctedKey rs cfg a = .error .uncorrectable := by
  rw [correctedKey, if_neg (not_clean_of_damaged h), hr]

/-! ### The obligation -/

/-- Settles O41: the count is within the budget because DE9 passed under the unchanged `CFG`; the end of
`HC.DECODE` is `correctedKey` of the analysis; and DE9 compares the count that `ERAMAP` answered. -/
theorem budgetAndFastPath : Obligations.BudgetAndFastPath := by
  constructor
  · intro rs id s t a h
    obtain ⟨hcfg, hcount⟩ := hcAnalyse_ok h
    rw [hcDecode_of_hcAnalyse rs h]
    refine ⟨hcfg ▸ hcount, ?_, fun hdamaged => ⟨?_, ?_⟩⟩
    · intro hzero hclean
      rw [correctedKey_of_clean t.cfg hzero hclean]
    · intro r hr
      rw [correctedKey_of_corrected t.cfg hdamaged hr]
    · intro hnone
      rw [correctedKey_of_uncorrectable t.cfg hdamaged hnone]
  · intro cfg cera res full s t bera cwOut count hp h
    exact analyseCodeword_of_eramap hp h

end Sys2Proof.Machine
end

section
/-! PROOF. Encoding and decoding (spec/30_encoding.md rules R70, R71, R82, R84): what the encoder presents
selects the command's expansion, what the ports select presents them again, and the decoder accepts exactly
the well-formed ones. -/

namespace Sys2Proof.Machine

/-- A written command that passes the ports and comes back as what it stands for (R87). The wait lets the tests
of the model finish before the proofs below start: both at once would pass the check's memory limit. -/
example : decode (encode Cfg.hck0 (.capencByte [65] 0x80)) =
    .ok (.capenc [65] [true, false, false, false, false, false, false, false] 8) := by
  sleep 30000
  decide +kernel

/-! ### From a command to the ports and back -/

theorem selectOp_encode (cfg : Cfg) (i : Instr) :
    selectOp (encode cfg i).op (encode cfg i).ports = i.expand cfg :=
  match i with
  | .b32enc data => Laws.SelectsBack.b32enc data cfg
  | .b32dec text => Laws.SelectsBack.b32dec text cfg
  | .tlcorr text => Laws.SelectsBack.tlcorr text cfg
  | .capenc run val min => Laws.SelectsBack.capenc run val min cfg
  | .capdec run era => Laws.SelectsBack.capdec run era cfg
  | .capchk res => Laws.SelectsBack.capchk res cfg
  | .eramap cera skip plen capera kb cw => Laws.SelectsBack.eramap cera skip plen capera kb cw cfg
  | .illegal => Laws.SelectsBack.illegal cfg
  | .capencPrefix run => Laws.SelectsBack.capencPrefix run cfg
  | .capencByte run b => Laws.SelectsBack.capencByte run b cfg

theorem decode_encode {cfg : Cfg} {i : Instr} (h : (i.expand cfg).wellFormed) :
    decode (encode cfg i) = .ok (i.expand cfg) :=
  decode_eq_ok_iff.2 ⟨selectOp_encode cfg i, h⟩

/-- Only the two pseudo-operations are another writing of a command (R87). -/
theorem expand_of_core {i : Instr} (cfg : Cfg) (h : i.core = true) : i.expand cfg = i := by
  cases i with
  | capencPrefix | capencByte => cases h
  | _ => rfl

/-! ### From the ports to a command and back -/

/-- The eight values of the `op` port. -/
theorem op_cases : ∀ op : BitVec 3,
    op = 0 ∨ op = 1 ∨ op = 2 ∨ op = 3 ∨ op = 4 ∨ op = 5 ∨ op = 6 ∨ op = 7 := by
  decide

theorem core_selectOp (op : BitVec 3) (p : Ports) : (selectOp op p).core = true := by
  rcases op_cases op with rfl | rfl | rfl | rfl | rfl | rfl | rfl | rfl <;> rfl

/-- Presenting what the ports select gives the same `op`, and the ports that `op` names (R23, R71). -/
theorem encode_selectOp (cfg : Cfg) (c : RawCmd) :
    encode cfg (selectOp c.op c.ports) = { op := c.op, ports := namedPorts c } := by
  obtain ⟨op, p⟩ := c
  rcases op_cases op with rfl | rfl | rfl | rfl | rfl | rfl | rfl | rfl <;> rfl

/-- Settles O1: the encoder presents ports that select the expansion, and the ports that an accepted command
names are those its instruction presents. -/
theorem decodeAndEncodeAgree : Obligations.DecodeAndEncodeAgree := by
  constructor
  · intro cfg i h
    exact ⟨decode_encode h, expand_of_core cfg⟩
  · intro cfg c i h
    obtain ⟨rfl, hw⟩ := decode_eq_ok_iff.1 h
    have henc := encode_selectOp cfg c
    exact ⟨core_selectOp c.op c.ports, hw, by rw [henc], by rw [henc]⟩

/-- Settles O2: each written-out command is decoded by computing. -/
theorem operationSelectsDecode : Obligations.OperationSelectsDecode :=
  ⟨rfl, rfl, rfl, rfl, rfl, rfl, rfl, rfl⟩

end Sys2Proof.Machine
end

section
/-! PROOF. The shape checks (spec/30_encoding.md rule R84) and the refusals they give. -/

namespace Sys2Proof.Machine

/-! ### The check of each operand list; `MAX_LEN` is infinite (log entry 6) -/

theorem shapeFault_capdec (run : List CodeUnit) (era : List Bit) :
    (Instr.capdec run era).shapeFault = if era.length = run.length then none else some .eraLength :=
  rfl

theorem shapeFault_eramap (cera : List Bit) (skip plen : Nat) (capera : List Bit) (kb : Nat)
    (cw : List Byte) : (Instr.eramap cera skip plen capera kb cw).shapeFault =
      if kb + capera.length ≤ cw.length then none else some .capWindow :=
  rfl

/-- Refused by name exactly when ill-shaped; the case of `exec_eq_refused_iff` with a given name. -/
theorem exec_eq_refused_illShaped_iff {i : Instr} {s : State} {f : ShapeFault} :
    exec i s = .refused (.illShaped f) ↔ (i.expand s.cfg).shapeFault = some f := by
  rw [exec_eq_refused_iff]
  constructor
  · rintro ⟨g, hg, hfg⟩
    cases hfg
    exact hg
  · exact fun h => ⟨f, h, rfl⟩

/-- Settles O12: `serve` checks the expansion's shape, and refuses by the name of the check or goes on. -/
theorem illShapedCommandsAreRefused : Obligations.IllShapedCommandsAreRefused := by
  constructor
  · intro i s f
    rw [exec_eq_refused_illShaped_iff]
  · intro i s
    exact ⟨fun hw => ⟨_, exec_eq_next_iff.2 ⟨hw, rfl⟩⟩, fun ⟨_, h⟩ => (exec_eq_next_iff.1 h).1⟩

/-- Settles O13: the two checks that can fail are those of `CAPDEC` and `ERAMAP`; every other command passes. -/
theorem shapeChecksByName : Obligations.ShapeChecksByName := by
  refine ⟨?_, ?_, ?_⟩
  · intro run era s h
    exact exec_eq_refused_illShaped_iff.2 ((shapeFault_capdec run era).trans (if_neg h))
  · intro cera skip plen capera kb cw s h
    exact exec_eq_refused_illShaped_iff.2
      ((shapeFault_eramap cera skip plen capera kb cw).trans (if_neg (Nat.not_le_of_lt h)))
  · intro i hera hwin
    cases i with
    | capdec run era => exact (shapeFault_capdec run era).trans (if_pos (hera run era rfl))
    | eramap cera skip plen capera kb cw =>
      exact (shapeFault_eramap cera skip plen capera kb cw).trans
        (if_pos (hwin cera skip plen capera kb cw rfl))
    | _ => rfl

end Sys2Proof.Machine
end

section
/-! PROOF. What one step does (spec/10_state.md rules R20, R24; spec/60_exceptions.md rules R205, R218): nothing
presented, a command performed, or a refusal. -/

namespace Sys2Proof.Machine

/-! ### The four ways of a step -/

theorem step_of_no_cmd {s : State} (h : s.cmd = none) : step s = .next (idle s) := by
  simp only [step, fetch, h]

theorem step_of_decode {s : State} {c : RawCmd} {i : Instr} (hc : s.cmd = some c)
    (hl : s.cfg.legal = true) (hi : decode c = .ok i) : step s = exec i s := by
  simp only [step, fetch, hc, checkInstance, hl, if_true, hi]

theorem step_of_illegal_cfg {s : State} {c : RawCmd} (hc : s.cmd = some c)
    (hl : s.cfg.legal = false) : step s = .refused .illegalCfg := by
  simp [step, fetch, hc, checkInstance, hl]

theorem step_of_decode_error {s : State} {c : RawCmd} {f : ShapeFault} (hc : s.cmd = some c)
    (hl : s.cfg.legal = true) (hf : decode c = .error f) : step s = .refused (.illShaped f) := by
  simp only [step, fetch, hc, checkInstance, hl, if_true, hf]

/-- Settles O3: one lemma for each way of a step. -/
theorem stepRunsTheDecodedCommand : Obligations.StepRunsTheDecodedCommand :=
  ⟨fun _ _ _ => step_of_decode, fun _ => step_of_no_cmd, fun _ _ => step_of_illegal_cfg,
    fun _ _ _ => step_of_decode_error⟩

/-! ### Presenting a command -/

/-- The step after a command was presented under a legal CFG performs its expansion. -/
theorem step_present_encode {cfg : Cfg} {i : Instr} {s : State} (hl : s.cfg.legal = true)
    (hw : (i.expand cfg).wellFormed) :
    step (s.present (encode cfg i)) = exec (i.expand cfg) s := by
  rw [step_of_decode (present_cmd _ s) hl (decode_encode hw), exec_present]

/-- Settles O37: the presented command is performed, and what it leaves is idle. -/
theorem everyWellFormedCommandIsServed : Obligations.EveryWellFormedCommandIsServed := by
  rintro cfg i s rfl hl hw
  have hexec : exec (i.expand s.cfg) s = .next (deliver (answer (i.expand s.cfg)) s) :=
    (exec_expand i s).trans (exec_eq_next_iff.2 ⟨hw, rfl⟩)
  exact ⟨_, (step_present_encode hl hw).trans hexec, hexec, deliver_cmd _ s, deliver_cfg _ s,
    step_of_no_cmd (deliver_cmd _ s)⟩

/-- Settles O35: `op = 7` reads no port and is never ill-shaped. -/
theorem reservedOperation : Obligations.ReservedOperation := by
  refine ⟨fun _ => rfl, fun s p hl => ?_⟩
  rw [step_of_decode (i := .illegal) (present_cmd _ s) hl rfl, exec_present]
  rfl

/-- Settles O44: an idle step and the end of a command both empty the port; only the latter leaves a status. -/
theorem resultPortsLastOneCommand : Obligations.ResultPortsLastOneCommand := by
  refine ⟨fun s t h => ?_, fun _ _ => ⟨rfl, rfl⟩, fun s h => ⟨idle s, step_of_no_cmd h, rfl, rfl, rfl⟩⟩
  rcases step_next_cases h with ⟨hnone, rfl⟩ | ⟨c, i, hc, -, -, hexec⟩
  · simp [hnone]
  · obtain ⟨-, rfl⟩ := exec_eq_next_iff.1 hexec
    rcases deliver_cases (answer (i.expand s.cfg)) s with ⟨d, -, hd⟩ | ⟨e, -, he⟩
    · simp [hd, hc]
    · simp [he, hc]

end Sys2Proof.Machine
end

section
/-! PROOF. What a command can end with (spec/60_exceptions.md rules R200, R201, R203), and the machine right
after reset (spec/70_reset_and_hazards.md rules R230 to R233). -/

namespace Sys2Proof.Machine

/-! ### The status codes -/

/-- The status with a given code (R200, decision D4 of the spec); a code without a name reads as `OK`. -/
def statusOfCode (code : BitVec 4) : Status :=
  match code.toNat with
  | 1 => .badInput
  | 2 => .unexpectedEof
  | 3 => .illegalOp
  | 8 => .badDataLen
  | 9 => .badIdLen
  | 10 => .internalGeneratedBadLen
  | 11 => .prefixMismatch
  | 12 => .tooManyErrors
  | 13 => .uncorrectable
  | 14 => .invalidKind
  | _ => .ok

theorem statusOfCode_code (st : Status) : statusOfCode st.code = st := by cases st <;> rfl

theorem ofBlock_iff (st : Status) : st.ofBlock = true ↔
    st = .ok ∨ st = .badInput ∨ st = .unexpectedEof ∨ st = .illegalOp := by
  cases st <;> decide

/-- Settles O11: a status is recovered from its code. -/
theorem statusCodesAreInjective : Obligations.StatusCodesAreInjective :=
  ⟨fun _ _ h => Function.LeftInverse.injective statusOfCode_code h, ofBlock_iff⟩

/-! ### The errors of the block -/

theorem core_expand (cfg : Cfg) (i : Instr) : (i.expand cfg).core = true := by cases i <;> rfl

theorem expand_eq_illegal_iff {cfg : Cfg} {i : Instr} : i.expand cfg = .illegal ↔ i = .illegal := by
  cases i <;> simp [Instr.expand]

theorem expand_eq_b32dec_iff {cfg : Cfg} {i : Instr} {text : List CodeUnit} :
    i.expand cfg = .b32dec text ↔ i = .b32dec text := by
  cases i <;> simp [Instr.expand]

/-- All the errors that an operation answers (R201): the reserved value, or `B32DEC` on its data. -/
theorem answer_error {i : Instr} {e : Status} (hi : i.core = true) (h : answer i = .error e) :
    (i = .illegal ∧ e = .illegalOp) ∨
      ∃ text, i = .b32dec text ∧ (e = .badInput ∨ e = .unexpectedEof) := by
  cases i with
  | b32dec text =>
    rw [answer] at h
    cases hd : b32dec text with
    | ok data => rw [hd] at h; cases h
    | error e' =>
      rw [hd] at h
      cases h
      exact .inr ⟨text, rfl, b32decFrom_error hd⟩
  | illegal => cases h; exact .inl ⟨rfl, rfl⟩
  | capencPrefix | capencByte => cases hi
  | _ => cases h

/-- Settles O10: an answer is delivered with `OK`, an error is one of those of `answer_error`. -/
theorem statusesByOperation : Obligations.StatusesByOperation := by
  intro i s t h
  obtain ⟨-, rfl⟩ := exec_eq_next_iff.1 h
  rcases deliver_cases (answer (i.expand s.cfg)) s with ⟨d, hans, hd⟩ | ⟨e, hans, he⟩
  · refine .inr (.inl ⟨?_, by rw [hd]; rfl⟩)
    rintro rfl
    cases hans
  · rw [he, raise_status]
    rcases answer_error (core_expand s.cfg i) hans with ⟨hi, rfl⟩ | ⟨text, hi, hst⟩
    · exact .inl ⟨expand_eq_illegal_iff.1 hi, rfl⟩
    · exact .inr (.inr ⟨text, expand_eq_b32dec_iff.1 hi, by simpa using hst⟩)

/-- An error of the block is a status of the block, and not `OK` (R200, R203). -/
theorem answer_error_ofBlock {i : Instr} {e : Status} (hi : i.core = true)
    (h : answer i = .error e) : e.ofBlock = true ∧ e ≠ .ok := by
  rcases answer_error hi h with ⟨-, rfl⟩ | ⟨-, -, rfl | rfl⟩ <;> decide

/-- Settles O8: `CFG`, port and counter by the lemmas on `complete` and `raise`; the status by the kind of
answer. -/
theorem commandFrame : Obligations.CommandFrame := by
  intro i s t h
  obtain ⟨-, rfl⟩ := exec_eq_next_iff.1 h
  rcases deliver_cases (answer (i.expand s.cfg)) s with ⟨d, -, hd⟩ | ⟨e, hans, he⟩
  · rw [hd]
    exact ⟨rfl, rfl, rfl, .ok, rfl, by decide, by simp⟩
  · obtain ⟨hblock, hne⟩ := answer_error_ofBlock (core_expand s.cfg i) hans
    rw [he]
    exact ⟨rfl, rfl, rfl, e, rfl, hblock, by simp [hne]⟩

/-! ### Right after reset -/

/-- Settles O6: reset writes the fields named, and what a command answers depends on `CFG` alone (O9). -/
theorem resetIsIdleAndReady : Obligations.ResetIsIdleAndReady := by
  intro cfg
  refine ⟨rfl, rfl, rfl, rfl, fun i s t hcfg h => ?_⟩
  exact (nothingCarriesOver i s (State.resetWith cfg) (.inl hcfg)).1 t h

end Sys2Proof.Machine
end

section
/-! PROOF. The invariant (spec/10_state.md rules R26, R39; spec/60_exceptions.md rules R200,
R203): a legal `CFG`, and a status and results that fit each other. What each operation answers satisfies
`Results.wf`; from this every step keeps the invariant. -/

namespace Sys2Proof.Machine

/-! ### What the results of each operation satisfy -/

/-- The text of `B32ENC` (R104, R56): symbols, and `ceil(8n/5)` of them. -/
theorem wf_b32enc (data : List Byte) : (Results.b32enc (b32enc data)).wf = true := by
  obtain ⟨pad, hpad, -, hlen, hsym⟩ := b32enc_spec data
  have halph : ∀ c ∈ b32enc data, c ∈ alph := fun c hc => by
    obtain ⟨v, rfl⟩ := hsym c hc
    exact sym_mem_alph v
  have hmod : (b32enc data).length % 8 ∈ [0, 2, 4, 5, 7] := by
    simp only [List.mem_cons, List.not_mem_nil, or_false]
    omega
  exact Bool.and_eq_true_iff.2 ⟨List.all_eq_true.2 fun c hc => List.contains_iff_mem.2 (halph c hc),
    List.contains_iff_mem.2 hmod⟩

/-- The results of `TLCORR` (R130): an erased character is the placeholder. -/
theorem wf_tlcorr (text : List CodeUnit) :
    (Results.tlcorr (correctedText text) (canonicalText text) (charErasures text)).wf = true := by
  have hzip : (correctedText text).zip (charErasures text) = text.map transliterate := by
    simp [correctedText, charErasures, List.zip_map']
  have herased : ∀ c : CodeUnit,
      (!(transliterate c).2 || (transliterate c).1 == 65) = true := fun c => by
    cases he : (transliterate c).2
    · rfl
    · simp [transliterate_of_erased c he]
  have hplaceholder : ∀ p ∈ (correctedText text).zip (charErasures text),
      (!p.2 || p.1 == 65) = true := by
    rw [hzip]
    intro p hp
    obtain ⟨c, -, rfl⟩ := List.mem_map.1 hp
    exact herased c
  have hcanon : (canonicalText text).all (fun c => alph.contains c) = true :=
    List.all_eq_true.2 fun c hc => List.contains_iff_mem.2 (mem_alph_of_mem_canonicalText hc)
  have hlen : ((correctedText text).length == (charErasures text).length) = true := by simp
  exact Bool.and_eq_true_iff.2 ⟨Bool.and_eq_true_iff.2 ⟨Bool.and_eq_true_iff.2
    ⟨beq_iff_eq.2 (canonicalText_eq_map text), hcanon⟩, hlen⟩, List.all_eq_true.2 hplaceholder⟩

/-- The count of `CAPENC` (R136): the letters of `run_out` are those of the run. -/
theorem wf_capenc (run : List CodeUnit) (val : List Bit) (min : Nat) :
    (Results.capenc (capenc run val min).1 (capenc run val min).2).wf = true := by
  have hcount : (capenc run val min).2 ≤ (capenc run val min).1.countP isAlpha := by
    rw [capenc_snd, countP_isAlpha_capenc]
    exact Nat.min_le_right _ _
  exact decide_eq_true hcount

/-- The results of `CAPCHK` (R146): all erased, or bytes on which the heuristic does not fire. -/
theorem wf_capchk (res : List OptByte) : (Results.capchk (capchk res) (casingLost res)).wf = true := by
  cases h : casingLost res with
  | true =>
    show (capchk res).all Option.isNone = true
    rw [capchk_of_lost h]
    simp
  | false =>
    show (!casingLost (capchk res)) = true
    rw [capchk_of_not_lost h, h]
    rfl

/-- Where the erasure set says 1 the zero-forced codeword is 00 (R164). -/
theorem zip_zeroForce_erased (bera : List Bit) (cw : List Byte) :
    ((bera.zip (zeroForce bera cw)).all fun p => !p.1 || p.2 == 0x00) = true := by
  induction bera generalizing cw with
  | nil => rfl
  | cons e es ih =>
    cases cw with
    | nil => rfl
    | cons b bs =>
      have htail := ih bs
      cases e <;> simpa [zeroForce] using htail

/-- The results of `ERAMAP` (R79, R164, R165). -/
theorem wf_eramap (bera : List Bit) (cw : List Byte) (h : bera.length = cw.length) :
    (Results.eramap bera (zeroForce bera cw) (erasureCount bera)).wf = true := by
  have hlen : (bera.length == (zeroForce bera cw).length) = true := by simp [h]
  exact Bool.and_eq_true_iff.2 ⟨Bool.and_eq_true_iff.2 ⟨hlen, beq_self_eq_true _⟩,
    zip_zeroForce_erased bera cw⟩

/-- Whatever an operation answers satisfies `Results.wf`. -/
theorem wf_of_answer {i : Instr} {d : Results} (h : answer i = .ok d) : d.wf = true := by
  cases i with
  | b32enc data => cases h; exact wf_b32enc data
  | b32dec text =>
    rw [answer] at h
    cases hd : b32dec text with
    | ok data => rw [hd] at h; cases h; rfl
    | error e => rw [hd] at h; cases h
  | tlcorr text => cases h; exact wf_tlcorr text
  | capenc run val min => cases h; exact wf_capenc run val min
  | capdec => cases h; rfl
  | capchk res => cases h; exact wf_capchk res
  | eramap cera skip plen capera kb cw => cases h; exact wf_eramap _ cw (by simp)
  | illegal | capencPrefix | capencByte => cases h

/-! ### Every step keeps the invariant -/

theorem coherent_iff {s : State} :
    Coherent s ↔ s.cfg.legal = true ∧ replyFits s.status s.result = true := by
  rw [Coherent, State.coherent, Bool.and_eq_true]

/-- The status and the results that the end of a command leaves fit each other. -/
theorem replyFits_deliver_answer {i : Instr} (hi : i.core = true) (s : State) :
    replyFits (deliver (answer i) s).status (deliver (answer i) s).result = true := by
  rcases deliver_cases (answer i) s with ⟨d, hans, hd⟩ | ⟨e, hans, he⟩
  · simp [hd, replyFits, wf_of_answer hans]
  · obtain ⟨hblock, hne⟩ := answer_error_ofBlock hi hans
    simp [he, replyFits, hblock, hne]

/-- Settles O4: an idle step leaves no status and no result; the end of a command leaves some that fit. -/
theorem everyStepKeepsTheInvariant : Obligations.EveryStepKeepsTheInvariant := by
  intro s t hs h
  obtain ⟨hlegal, -⟩ := coherent_iff.1 hs
  rcases step_next_cases h with ⟨-, rfl⟩ | ⟨c, i, -, -, -, hexec⟩
  · exact coherent_iff.2 ⟨hlegal, rfl⟩
  · obtain ⟨-, rfl⟩ := exec_eq_next_iff.1 hexec
    refine coherent_iff.2 ⟨?_, replyFits_deliver_answer (core_expand s.cfg i) s⟩
    rwa [deliver_cfg]

theorem coherent_resetWith {cfg : Cfg} (h : cfg.legal = true) : Coherent (State.resetWith cfg) :=
  coherent_iff.2 ⟨h, rfl⟩

/-- Settles O5: reset leaves no status and no result, and `hck0` is legal. -/
theorem resetMeetsTheInvariant : Obligations.ResetMeetsTheInvariant :=
  ⟨coherent_resetWith (by decide), fun _ => coherent_resetWith⟩

end Sys2Proof.Machine
end

section
/-! PROOF. The constant tables (spec/30_encoding.md rules R72 to R75) and the source's configuration
(spec/10_state.md rules R6, R26, R27). -/

namespace Sys2Proof.Machine

/-! ### ALPH and INV -/

theorem alph_getElem?_toNat (v : Symbol) : alph[v.toNat]? = some (sym v) := by
  have hlt : v.toNat < alph.length := v.isLt
  rw [sym, List.getD_eq_getElem?_getD, List.getElem?_eq_getElem hlt, Option.getD_some]

theorem mem_alph_iff {c : CodeUnit} : c ∈ alph ↔ ∃ v, c = sym v := by
  constructor
  · intro h
    obtain ⟨i, hi, rfl⟩ := List.getElem_of_mem h
    refine ⟨BitVec.ofNat 5 i, Option.some.inj ?_⟩
    rw [← alph_getElem?_toNat, BitVec.toNat_ofNat, Nat.mod_eq_of_lt (show i < 2 ^ 5 from hi),
      List.getElem?_eq_getElem hi]
  · rintro ⟨v, rfl⟩
    exact sym_mem_alph v

theorem rejected_iff_symbolOf (c : CodeUnit) : rejected c ↔ symbolOf c = .error .badInput := by
  refine ⟨symbolOf_eq_badInput_of_rejected, fun h => ?_⟩
  by_contra hc
  obtain ⟨v, rfl⟩ := eq_sym_of_not_rejected hc
  rw [symbolOf_sym] at h
  cases h

theorem rejected_iff_not_mem_alph (c : CodeUnit) : rejected c ↔ c ∉ alph := by
  rw [mem_alph_iff]
  constructor
  · rintro h ⟨v, rfl⟩
    rw [rejected_iff_symbolOf, symbolOf_sym] at h
    cases h
  · intro h
    by_contra hc
    exact h (eq_sym_of_not_rejected hc)

/-- Settles O7: `ALPH` by computing, `INV` by its lookups of symbols and of rejected characters. -/
theorem tablesInvertEachOther : Obligations.TablesInvertEachOther :=
  ⟨by decide, rfl, rfl, fun v => ⟨symbolOf_sym v, alph_getElem?_toNat v⟩,
    fun _ _ h => (eq_sym_of_symbolOf h).symm, rejected_iff_not_mem_alph, rejected_iff_symbolOf⟩

/-! ### The source's configuration -/

theorem legal_source {p : List Byte} (h : p.length = 3) : (Cfg.source p).legal = true := by
  simp [Cfg.legal, Cfg.fieldsLegal, Cfg.lengthAgrees, Cfg.casingFits, Cfg.codewordFits, Cfg.source,
    renderedLength, h]

/-- Settles O36: the invariants hold of any 3-byte prefix, and 3 + 4 · 15 = 63. -/
theorem sourceConfigurationIsLegal : Obligations.SourceConfigurationIsLegal :=
  fun _ h => ⟨legal_source h, rfl, rfl, rfl⟩

end Sys2Proof.Machine
end

section
/-! PROOF. The bit buffer of `B32ENC` between two bytes (spec/10_state.md rule R33, spec/40_base32_encoder.md
rule R101). -/

namespace Sys2Proof.Machine

/-- The buffer after the bytes `data`, started from any buffer (`bufferAfter` starts from the empty one). -/
def bufferFrom (b : BitBuffer) (data : List Byte) : BitBuffer :=
  data.foldl (fun b d => (emitSymbols (b.nbits + 8) (pushBits 8 d.toNat b)).2) b

theorem bufferFrom_empty (data : List Byte) : bufferFrom emptyBuffer data = bufferAfter data := rfl

/-- All that `B32ENC` does with the bytes `data` before the bytes `rest`: at most four bits stay buffered, and
what it has emitted accounts for the others. -/
theorem b32encFrom_append {b : BitBuffer} (data rest : List Byte) (hn : b.nbits ≤ 4)
    (ha : b.acc < 2 ^ b.nbits) :
    (bufferFrom b data).nbits ≤ 4 ∧ (bufferFrom b data).acc < 2 ^ (bufferFrom b data).nbits ∧
    ∃ out, b32encFrom b (data ++ rest) = out ++ b32encFrom (bufferFrom b data) rest ∧
      5 * out.length + (bufferFrom b data).nbits = b.nbits + 8 * data.length := by
  induction data generalizing b with
  | nil => exact ⟨hn, ha, [], rfl, by simp [bufferFrom]⟩
  | cons d ds ih =>
    obtain ⟨-, hn', ha', hcount, -⟩ := emitSymbols_spec (b.nbits + 8) (pushBits 8 d.toNat b)
      (by simp only [pushBits]; omega) (pushBits_acc_lt ha d.isLt)
    have hpush : (pushBits 8 d.toNat b).nbits = b.nbits + 8 := rfl
    obtain ⟨hnd, had, out, hout, hlen⟩ := ih hn' ha'
    refine ⟨hnd, had, (emitSymbols (b.nbits + 8) (pushBits 8 d.toNat b)).1 ++ out, ?_, ?_⟩
    · rw [List.cons_append, b32encFrom, hout, List.append_assoc]
      rfl
    · simp only [List.length_append, List.length_cons]
      simp only [bufferFrom, List.foldl_cons] at hlen ⊢
      omega

/-- Settles O16: at most four bits are left of each byte, eight enter with the next. -/
theorem twelveBitsSuffice : Obligations.TwelveBitsSuffice := by
  intro data d
  have hspec (rest : List Byte) :=
    b32encFrom_append (b := emptyBuffer) data rest (by decide) (by decide)
  simp only [bufferFrom_empty] at hspec
  obtain ⟨hn, ha, -⟩ := hspec []
  refine ⟨hn, ha, Nat.add_le_add_right hn 8, pushBits_acc_lt ha d.isLt, fun rest => ?_⟩
  obtain ⟨-, -, out, hout, hlen⟩ := hspec rest
  have hempty : emptyBuffer.nbits = 0 := rfl
  exact ⟨out, hout, by omega⟩

end Sys2Proof.Machine
end

section
/-! PROOF. The two round-trip laws of Base32 and what follows from them (spec/40_base32_encoder.md rule R104,
spec/41_base32_decoder.md rule R116, spec/20_memory.md rule R56). A text of symbols is determined by its
stream, and the stream of an encoding is that of the data with at most four zeros. -/

namespace Sys2Proof.Machine

/-! ### The two laws -/

/-- Bytes and at most seven bits after them are determined by the stream and the number of bytes. -/
theorem bitstream_append_inj {d e : List Byte} {x y : List Bit} (hlen : d.length = e.length)
    (h : bitstream d ++ x = bitstream e ++ y) : d = e ∧ x = y := by
  obtain ⟨hbytes, htail⟩ := List.append_inj h (by simp [hlen])
  exact ⟨bitstream_injective hbytes, htail⟩

/-- Decoding takes the padding of the last symbol off again (R116). -/
theorem b32dec_b32enc (data : List Byte) : b32dec (b32enc data) = .ok data := by
  obtain ⟨pad, hpad, hstream, hlen, hsym⟩ := b32enc_spec data
  obtain ⟨data', hstream', hlen', hdec⟩ := b32dec_of_symbols hsym
  obtain ⟨rfl, htail⟩ := bitstream_append_inj (by omega) (hstream'.symm.trans hstream)
  rw [hdec, htail, if_pos]
  exact ⟨by omega, by simp⟩

/-- A text of symbols is determined by its stream. -/
theorem eq_of_symbolStream_eq {text text' : List CodeUnit} (hv : ∀ c ∈ text, ∃ v, c = sym v)
    (hv' : ∀ c ∈ text', ∃ v, c = sym v) (h : symbolStream text = symbolStream text') :
    text = text' := by
  have hlen : text.length = text'.length := by
    have := congrArg List.length h
    rw [symbolStream_length hv, symbolStream_length hv'] at this
    omega
  apply List.ext_getElem?
  intro i
  rcases lt_or_ge i text.length with hi | hi
  · rw [getElem?_eq_alph_fiveBits_symbolStream hv hi,
      getElem?_eq_alph_fiveBits_symbolStream hv' (hlen ▸ hi), h]
  · rw [List.getElem?_eq_none hi, List.getElem?_eq_none (hlen ▸ hi)]

/-- What is accepted is the rendering of what it decodes to (R116). -/
theorem b32enc_of_b32dec {text : List CodeUnit} {data : List Byte} (h : b32dec text = .ok data) :
    b32enc data = text := by
  obtain ⟨hsym, -, pad, hpad, hstream⟩ := b32dec_ok h
  obtain ⟨pad', hpad', hstream', hlen', hsym'⟩ := b32enc_spec data
  have hlen : 5 * text.length = 8 * data.length + pad := by
    rw [← symbolStream_length hsym, hstream]
    simp
  have hpads : pad = pad' := by omega
  exact eq_of_symbolStream_eq hsym' hsym (by rw [hstream', hstream, hpads])

/-- Settles O20: the first law, delivered. -/
theorem decodeInvertsEncode : Obligations.DecodeInvertsEncode := by
  intro data s h
  rw [exec_b32dec h, b32dec_b32enc]
  rfl

/-- The two ends of a `B32DEC`: the bytes it decoded, or its error. -/
theorem exec_b32dec_cases {text : List CodeUnit} {s t : State}
    (h : exec (.b32dec text) s = .next t) :
    (∃ data, b32dec text = .ok data ∧ t = complete (.b32dec data) s) ∨
      ∃ e, b32dec text = .error e ∧ t = raise e s := by
  obtain ⟨-, rfl⟩ := exec_eq_next_iff.1 h
  rw [Instr.expand, answer]
  cases b32dec text with
  | ok data => exact .inl ⟨data, rfl, rfl⟩
  | error e => exact .inr ⟨e, rfl, rfl⟩

/-- Settles O21: the second law, on the state that the decoding left. -/
theorem acceptedTextsAreCanonical : Obligations.AcceptedTextsAreCanonical := by
  intro text data s t hw h ht
  rcases exec_b32dec_cases h with ⟨data', hdec, rfl⟩ | ⟨e, -, rfl⟩
  · cases ht
    rw [exec_b32enc hw, b32enc_of_b32dec hdec]
  · cases ht

/-! ### Consequences -/

theorem b32enc_injective : Function.Injective b32enc := by
  intro d e h
  have hdec := b32dec_b32enc d
  rw [h, b32dec_b32enc] at hdec
  exact (Except.ok.inj hdec).symm

theorem mem_alph_of_mem_b32enc {data : List Byte} {c : CodeUnit} (h : c ∈ b32enc data) : c ∈ alph := by
  obtain ⟨-, -, -, -, hsym⟩ := b32enc_spec data
  exact mem_alph_iff.2 (hsym c h)

/-- The last character of 39 bytes carries their last two bits and three zeros. -/
theorem fiveBits_bitstream_last {data : List Byte} (h : data.length = 39) :
    ∃ x y : Bit, fiveBits (bitstream data) 62 = [x, y, false, false, false] := by
  have hbeyond (n : Nat) (hn : 312 ≤ n) : (bitstream data).getD n false = false :=
    List.getD_eq_default _ _ (by rw [bitstream_length, h]; exact hn)
  have hfive : fiveBits (bitstream data) 62 =
      [(bitstream data).getD 310 false, (bitstream data).getD 311 false,
        (bitstream data).getD 312 false, (bitstream data).getD 313 false,
        (bitstream data).getD 314 false] := rfl
  rw [hbeyond 312 (by omega), hbeyond 313 (by omega), hbeyond 314 (by omega)] at hfive
  exact ⟨_, _, hfive⟩

theorem alph_of_two_bits : ∀ x y : Bit, ∃ c,
    alph[bitsToNat [x, y, false, false, false]]? = some c ∧ (c = 65 ∨ c = 73 ∨ c = 82 ∨ c = 90) := by
  decide

theorem getLast?_b32enc {data : List Byte} (h : data.length = 39) :
    ∃ c, (b32enc data).getLast? = some c ∧ (c = 65 ∨ c = 73 ∨ c = 82 ∨ c = 90) := by
  have hlen : (b32enc data).length = 63 := by rw [b32enc_length, h]; rfl
  obtain ⟨x, y, hbits⟩ := fiveBits_bitstream_last h
  rw [List.getLast?_eq_getElem?, hlen, b32enc_getElem? (by omega), hbits]
  exact alph_of_two_bits x y

/-- Settles O17: symbols by the encoder's specification, the last by its five bits, injectivity by the first
law. -/
theorem b32encCornerCases : Obligations.B32encCornerCases :=
  ⟨fun _ _ => mem_alph_of_mem_b32enc, fun _ => getLast?_b32enc, fun _ _ h => b32enc_injective h⟩

/-- Whole bytes and at most four zeros do not make up a text whose length mod 8 is 1, 3 or 6 (R56). -/
theorem length_mod_of_b32dec {text : List CodeUnit} {data : List Byte} (h : b32dec text = .ok data) :
    text.length % 8 ≠ 1 ∧ text.length % 8 ≠ 3 ∧ text.length % 8 ≠ 6 := by
  have hlen : text.length = (8 * data.length + 4) / 5 := by
    rw [← b32enc_of_b32dec h, b32enc_length]
    rfl
  omega

/-- Settles O19: no data fits the length, so `B32DEC` ends with one of its two errors. -/
theorem undecodableLengths : Obligations.UndecodableLengths := by
  intro text s t h hm
  rcases exec_b32dec_cases h with ⟨data, hdec, -⟩ | ⟨e, hdec, rfl⟩
  · have := length_mod_of_b32dec hdec
    omega
  · simpa using b32decFrom_error hdec

end Sys2Proof.Machine
end

section
/-! PROOF. What `TLCORR` answers (spec/42_transliteration_corrector.md rules R126, R129, R130). -/

namespace Sys2Proof.Machine

theorem exec_tlcorr {text : List CodeUnit} (h : (Instr.tlcorr text).wellFormed) (s : State) :
    exec (.tlcorr text) s = .next (complete
      (.tlcorr (correctedText text) (canonicalText text) (charErasures text)) s) :=
  exec_eq_next_iff.2 ⟨h, rfl⟩

theorem charErasures_getElem? (text : List CodeUnit) (i : Nat) :
    (charErasures text)[i]? = text[i]?.map fun c => (transliterate c).2 := by
  rw [charErasures, List.getElem?_map]

/-- Settles O22: no path raises an error, and a character is erased exactly when it is unmappable. -/
theorem tlcorrAlwaysOk : Obligations.TlcorrAlwaysOk := by
  intro text s h
  refine ⟨_, _, _, _, exec_tlcorr h s, rfl, rfl, charErasures_length text, fun i c hc => ?_⟩
  rw [charErasures_getElem?, hc, Option.map_some, Option.some_inj]
  exact transliterate_erased_iff c

/-! ### One character -/

theorem isUpper_iff {c : CodeUnit} : isUpper c = true ↔ 65 ≤ c.toNat ∧ c.toNat ≤ 90 := by
  simp [isUpper]

theorem isLower_iff {c : CodeUnit} : isLower c = true ↔ 97 ≤ c.toNat ∧ c.toNat ≤ 122 := by
  simp [isLower]

theorem isDigit39_iff {c : CodeUnit} : isDigit39 c = true ↔ 51 ≤ c.toNat ∧ c.toNat ≤ 57 := by
  simp [isDigit39]

/-- The cases of `TLCORR`, in the rule's order (R126). -/
theorem transliterate_eq (c : CodeUnit) : transliterate c =
    if c.toNat = 48 then (79, false)
    else if c.toNat = 49 ∨ c.toNat = 108 ∨ c.toNat = 76 then (73, false)
    else if c.toNat = 50 then (90, false)
    else if isUpper c || isLower c || isDigit39 c then (c, false)
    else (65, true) :=
  rfl

/-- A character that is neither confusable nor unmappable is kept (R126). -/
theorem transliterate_of_kept {c : CodeUnit} (h : (51 ≤ c.toNat ∧ c.toNat ≤ 57) ∨
    (65 ≤ c.toNat ∧ c.toNat ≤ 90 ∧ c.toNat ≠ 76) ∨ (97 ≤ c.toNat ∧ c.toNat ≤ 122 ∧ c.toNat ≠ 108)) :
    transliterate c = (c, false) := by
  have hkept : (isUpper c || isLower c || isDigit39 c) = true := by
    rw [Bool.or_eq_true, Bool.or_eq_true, isUpper_iff, isLower_iff, isDigit39_iff]
    omega
  rw [transliterate_eq, if_neg (by omega), if_neg (by omega), if_neg (by omega), if_pos hkept]

/-- The five cases of the rule (R126). -/
theorem transliteratesTo_transliterate (c : CodeUnit) :
    TransliteratesTo c (transliterate c).1 (transliterate c).2 := by
  refine ⟨fun h => ?_, fun h => ?_, fun h => ?_, fun h => ?_, fun h => ?_⟩
  · rw [transliterate_eq, if_pos h]
    exact ⟨rfl, rfl⟩
  · rw [transliterate_eq, if_neg (by omega), if_pos h]
    exact ⟨rfl, rfl⟩
  · rw [transliterate_eq, if_neg (by omega), if_neg (by omega), if_pos h]
    exact ⟨rfl, rfl⟩
  · rw [transliterate_of_kept h]
    exact ⟨rfl, rfl⟩
  · have herased := (transliterate_erased_iff c).2 h
    exact ⟨transliterate_of_erased c herased, herased⟩

/-- Settles O23: the three results are maps of `transliterate` over the text. -/
theorem tlcorrByCharacter : Obligations.TlcorrByCharacter := by
  intro text s h
  refine ⟨_, _, _, exec_tlcorr h s, correctedText_length text, canonicalText_length text,
    charErasures_length text, fun i c hc => ⟨_, _, ?_, ?_, ?_, transliteratesTo_transliterate c⟩⟩
  · simp [correctedText, hc]
  · simp [canonicalText, hc]
  · simp [charErasures, hc]

/-! ### Decoding and correcting what `TLCORR` answers -/

/-- A text over `ALPH` is decoded or has a malformed tail (R114, R130). -/
theorem b32dec_ne_badInput {text : List CodeUnit} (h : ∀ c ∈ text, c ∈ alph) :
    b32dec text ≠ .error .badInput := by
  obtain ⟨data, -, -, hdec⟩ := b32dec_of_symbols fun c hc => mem_alph_iff.1 (h c hc)
  rw [hdec]
  split <;> simp

/-- A corrected text is over `ALPH` but for its case. -/
theorem toUpper_mem_alph_of_mem_correctedText {text : List CodeUnit} {c : CodeUnit}
    (h : c ∈ correctedText text) : toUpper c ∈ alph := by
  obtain ⟨d, -, rfl⟩ := List.mem_map.1 h
  exact toUpper_transliterate_mem_alph d

/-- Settles O24: `canon` is over `ALPH`, and so is `corr` in uppercase, which `TLCORR` then leaves alone. -/
theorem canonicalTextIsOverTheAlphabet : Obligations.CanonicalTextIsOverTheAlphabet := by
  intro text corr canon cera s t h ht
  obtain ⟨-, rfl⟩ := exec_eq_next_iff.1 h
  obtain ⟨rfl, rfl, rfl⟩ : correctedText text = corr ∧ canonicalText text = canon ∧
      charErasures text = cera := by simpa [Instr.expand, answer] using ht
  refine ⟨fun _ => mem_alph_of_mem_canonicalText, ?_, ?_⟩
  · intro u hu hbad
    rcases exec_b32dec_cases hu with ⟨data, -, rfl⟩ | ⟨e, hdec, rfl⟩
    · cases hbad
    · cases hbad
      exact b32dec_ne_badInput (fun _ => mem_alph_of_mem_canonicalText) hdec
  · intro u hu
    obtain ⟨-, rfl⟩ := exec_eq_next_iff.1 hu
    obtain ⟨hcorr, hcanon, hcera⟩ :=
      tlcorr_of_symbols fun c => toUpper_mem_alph_of_mem_correctedText (text := text) (c := c)
    simp only [Instr.expand, answer, deliver_ok, complete_result, hcorr, hcanon, hcera,
      correctedText_length, ← canonicalText_eq_map]

end Sys2Proof.Machine
end

section
/-! PROOF. The case-bit convention and `CAPENC` (spec/43_capitalization_parity_packer.md rules R135 to R139;
spec/30_encoding.md rules R77, R87). -/

namespace Sys2Proof.Machine

/-! ### The case of one character -/

theorem isUpper_eq_false_of_isLower {c : CodeUnit} (h : isLower c = true) : isUpper c = false := by
  rw [isLower_iff] at h
  rw [Bool.eq_false_iff, Ne, isUpper_iff]
  omega

/-- The bit of a character by its case (R137). -/
theorem caseBit_eq (c : CodeUnit) : caseBit c =
    if isUpper c then some true else if isLower c then some false else none :=
  rfl

theorem caseBit_eq_true_iff (c : CodeUnit) : caseBit c = some true ↔ isUpper c = true := by
  rw [caseBit_eq]
  split_ifs <;> simp_all

theorem caseBit_eq_false_iff (c : CodeUnit) : caseBit c = some false ↔ isLower c = true := by
  cases hl : isLower c with
  | true => simp [caseBit_eq, hl, isUpper_eq_false_of_isLower hl]
  | false => simp [caseBit_eq, hl]

theorem caseBit_eq_none_iff (c : CodeUnit) : caseBit c = none ↔ isAlpha c = false := by
  rw [← isSome_caseBit, Option.isSome_eq_false_iff, Option.isNone_iff_eq_none]

/-! ### CAPENC -/

/-- The bits of a byte, in the order in which they are consumed: most significant first (R77, R138). -/
theorem bits8_eq_map_getMsbD (b : Byte) : bits8 b = (List.range 8).map fun t => b.getMsbD t := by
  simp [bits8, List.range_succ, BitVec.getMsbD]

/-- The results of `CAPENC` by the rule (R136). -/
theorem carriesBits_capenc (run : List CodeUnit) (val : List Bit) (min : Nat) :
    CarriesBits run val min (capenc run val min).1 (capenc run val min).2 := by
  obtain ⟨-, -, hchar⟩ := carryBits_spec val run
  refine ⟨capenc_snd run val min, length_capenc run val min, fun i c hc => ?_⟩
  obtain ⟨hother, hone, hzero⟩ := hchar i c hc
  rw [capenc_snd, capenc_fst]
  constructor
  · intro hbelow
    rw [if_pos hbelow, List.getElem?_map, hc, Option.map_some]
  · refine ⟨fun hmet => ?_, fun hmet => ?_, fun hmet => ?_⟩ <;> rw [if_neg (Nat.not_lt_of_le hmet)]
    exacts [hother, hone, hzero]

/-- Every well-formed `CAPENC`, however it is written, completes with the results of R136 (R87, R139). -/
theorem exec_of_expand_capenc {i : Instr} {s : State} {run : List CodeUnit} {val : List Bit} {min : Nat}
    (hi : i.expand s.cfg = .capenc run val min) (h : (Instr.capenc run val min).wellFormed) :
    exec i s = .next (complete (.capenc (capenc run val min).1 (capenc run val min).2) s) :=
  exec_eq_next_iff.2 (hi ▸ ⟨h, rfl⟩)

/-- Settles O25: one walk for the operation and for the two commands that expand to it. -/
theorem capencCarriesTheBits : Obligations.CapencCarriesTheBits := by
  refine ⟨fun run val min s h => ?_, fun run s h => ?_, fun run b s h => ?_⟩
  · exact ⟨_, _, exec_of_expand_capenc rfl h, carriesBits_capenc run val min⟩
  · exact ⟨_, _, exec_of_expand_capenc (expand_capencPrefix s.cfg run) h, carriesBits_capenc run _ 3⟩
  · rw [← bits8_eq_map_getMsbD]
    exact ⟨_, _, exec_of_expand_capenc (expand_capencByte s.cfg run b) h, carriesBits_capenc run _ 8⟩

/-- Where the threshold is met, the case bits of `run_out` are the value as far as there are letters, then
zeros (R136, R137). -/
theorem filterMap_caseBit_capenc {run : List CodeUnit} {val : List Bit} {min : Nat}
    (h : min ≤ (capenc run val min).2) :
    (capenc run val min).1.filterMap caseBit =
      val.take (run.countP isAlpha) ++ List.replicate (run.countP isAlpha - val.length) false := by
  rw [capenc_snd] at h
  rw [capenc_fst, if_neg (Nat.not_lt_of_le h), filterMap_caseBit_carryBits]

/-- Settles O27: the convention character by character, in what `CAPENC` writes and in what `CAPDEC` reads. -/
theorem caseBitConvention : Obligations.CaseBitConvention :=
  ⟨fun c => ⟨caseBit_eq_true_iff c, caseBit_eq_false_iff c, caseBit_eq_none_iff c⟩,
    fun _ _ _ => filterMap_caseBit_capenc, recoverBits_eq 8⟩

/-- `CAPENC` does not look at the case of its input, so no change of case matters (R139 (a)). -/
theorem capenc_map {f : CodeUnit → CodeUnit}
    (hf : ∀ c, isAlpha (f c) = isAlpha c ∧ toUpper (f c) = toUpper c ∧ toLower (f c) = toLower c ∧
      (isAlpha c = false → f c = c)) (run : List CodeUnit) (val : List Bit) (min : Nat) :
    capenc (run.map f) val min = capenc run val min := by
  have hlower : (run.map f).map toLower = run.map toLower := by
    rw [List.map_map]
    exact List.map_congr_left fun c _ => (hf c).2.2.1
  rw [capenc, capenc, carryBits_map f hf, hlower]

/-- Settles O28: only case is written, and case is not read. -/
theorem capencKeepsTheLetters : Obligations.CapencKeepsTheLetters := by
  refine fun run val min => ⟨map_toUpper_capenc run val min, capenc_map (fun c => ?_) run val min,
    capenc_map (fun c => ?_) run val min⟩
  · exact ⟨isAlpha_toUpper c, toUpper_toUpper c, toLower_toUpper c, fun h => (case_of_not_isAlpha c h).1⟩
  · exact ⟨isAlpha_toLower c, toUpper_toLower c, toLower_toLower c,
      fun h => (case_of_not_isAlpha c h).2.1⟩

end Sys2Proof.Machine
end

section
/-! PROOF. What `CAPDEC` reads, what it reads of a run that `CAPENC.BYTE` wrote, and the heuristic of `CAPCHK`
(spec/43_capitalization_parity_packer.md rules R141 to R148). -/

namespace Sys2Proof.Machine

/-! ### CAPDEC -/

theorem exec_capdec {run : List CodeUnit} {era : List Bit} (h : (Instr.capdec run era).wellFormed)
    (s : State) : exec (.capdec run era) s = .next (complete (.capdec (capdec run era)) s) :=
  exec_eq_next_iff.2 ⟨h, rfl⟩

theorem capdec_of_erased {run : List CodeUnit} {era : List Bit} (h : true ∈ era) :
    capdec run era = none := by
  rw [capdec_eq, if_pos (.inl h)]

theorem capdec_of_few_letters {run : List CodeUnit} (era : List Bit) (h : run.countP isAlpha < 8) :
    capdec run era = none := by
  rw [capdec_eq, if_pos (.inr h)]

theorem capdec_of_letters {run : List CodeUnit} {era : List Bit} (he : true ∉ era)
    (h : 8 ≤ run.countP isAlpha) :
    capdec run era = some (byteOfBits ((run.filterMap caseBit).take 8)) := by
  rw [capdec_eq, if_neg (not_or.2 ⟨he, Nat.not_lt_of_le h⟩)]

/-- Settles O29: the three cases of `CAPDEC`, the byte bit by bit. -/
theorem capdecReadsTheCase : Obligations.CapdecReadsTheCase := by
  intro run era s h
  refine ⟨_, exec_capdec h s, capdec_of_erased, capdec_of_few_letters era, fun he hletters => ?_⟩
  refine ⟨_, capdec_of_letters he hletters, fun t ht => ?_⟩
  have hlen : ((run.filterMap caseBit).take 8).length = 8 := by
    rw [List.length_take, length_filterMap_caseBit]
    omega
  rw [← getMsbD_byteOfBits hlen ht, List.getElem?_take_of_lt ht]

/-- What `CAPENC.BYTE` wrote into a run of eight letters or more, `CAPDEC` reads back; of a shorter one it
reads nothing (R144 (d)). -/
theorem capdec_capenc (run : List CodeUnit) (b : Byte) {era : List Bit} (he : true ∉ era) :
    capdec (capenc run (bits8 b) minByte).1 era =
      if 8 ≤ (capenc run (bits8 b) minByte).2 then some b else none := by
  have hcount : (capenc run (bits8 b) minByte).2 = Nat.min 8 (run.countP isAlpha) := by
    rw [capenc_snd, bits8_length]
  have hletters := countP_isAlpha_capenc run (bits8 b) minByte
  split
  · next hmet =>
    have h8 : 8 ≤ run.countP isAlpha := (hcount ▸ hmet).trans (Nat.min_le_right _ _)
    have htake : (bits8 b).take (run.countP isAlpha) = bits8 b :=
      List.take_of_length_le (by rwa [bits8_length])
    rw [capdec_of_letters he (by rwa [hletters]), filterMap_caseBit_capenc (min := minByte) hmet, htake,
      List.take_left' (bits8_length b), byteOfBits_bits8]
  · next hmet =>
    refine capdec_of_few_letters era ?_
    rw [hletters]
    by_contra h8
    exact hmet (hcount ▸ Nat.le_min.2 ⟨le_rfl, Nat.not_lt.1 h8⟩)

/-- Settles O30: the run that `CAPENC.BYTE` left, read with no erasure. -/
theorem capdecReadsBackCapenc : Obligations.CapdecReadsBackCapenc := by
  intro run out b count s t h ht hw
  obtain ⟨-, rfl⟩ := exec_eq_next_iff.1 h
  obtain ⟨rfl, rfl⟩ : (capenc run (bits8 b) minByte).1 = out ∧
      (capenc run (bits8 b) minByte).2 = count := by simpa [Instr.expand, answer] using ht
  rw [exec_capdec hw, capdec_capenc run b (by simp)]

/-! ### CAPCHK -/

theorem exec_capchk {res : List OptByte} (h : (Instr.capchk res).wellFormed) (s : State) :
    exec (.capchk res) s = .next (complete (.capchk (capchk res) (casingLost res)) s) :=
  exec_eq_next_iff.2 ⟨h, rfl⟩

/-- Settles O31: the flag by the quantifier of R146, the results by the flag. -/
theorem capchkHeuristic : Obligations.CapchkHeuristic := by
  intro res s h
  exact ⟨_, _, exec_capchk h s, casingLost_iff res, capchk_of_lost, capchk_of_not_lost⟩

/-- A second `CAPCHK` fires exactly when the first did: of nothing but erased elements it fires (R147). -/
theorem casingLost_capchk (res : List OptByte) : casingLost (capchk res) = casingLost res := by
  cases h : casingLost res with
  | true => rw [capchk_of_lost h, casingLost_iff]; exact .inl (by simp)
  | false => rw [capchk_of_not_lost h, h]

theorem capchk_capchk (res : List OptByte) : capchk (capchk res) = capchk res := by
  cases h : casingLost res with
  | true => rw [capchk_of_lost ((casingLost_capchk res).trans h), capchk_length, capchk_of_lost h]
  | false => exact capchk_of_not_lost ((casingLost_capchk res).trans h)

/-- Settles O32: the flag and the results of a second `CAPCHK` are those of the first. -/
theorem capchkIsIdempotent : Obligations.CapchkIsIdempotent := by
  intro res out lost s t h ht hw
  obtain ⟨-, rfl⟩ := exec_eq_next_iff.1 h
  cases ht
  rw [exec_capchk hw, capchk_capchk, casingLost_capchk]

end Sys2Proof.Machine
end

section
/-! PROOF. The erasure set of `ERAMAP` in closed form (spec/44_erasure_position_mapper.md rules R161 to R166). -/

namespace Sys2Proof.Machine

/-- The erasure set by the operands: the two walks mark what R161 says, inside the codeword (R163). -/
theorem erasureSet_getElem? {cera capera : List Bit} {skip plen kb len b : Nat}
    (hfit : kb + capera.length ≤ len) (hb : b < len) :
    (erasureSet cera skip plen capera kb len)[b]? = some true ↔
      ErasedBy cera skip plen capera kb b := by
  rw [erasureSet, markCharErasures_getElem? _ _ _ _ _ (by simpa using hb),
    markCapErasures_getElem? _ _ _ _ (by simpa using hfit), ErasedBy]
  have hclear : (List.replicate len false)[b]? ≠ some true := by simp [hb]
  simp only [hclear, false_or, Nat.add_zero, List.getElem?_drop]
  refine or_congr Iff.rfl ⟨?_, ?_⟩
  · rintro ⟨j, hj, hpos⟩
    exact ⟨skip + j, Nat.le_add_right _ _, hj, hpos⟩
  · rintro ⟨i, hi, hera, hpos⟩
    obtain ⟨j, rfl⟩ := Nat.exists_eq_add_of_le hi
    exact ⟨j, hera, hpos⟩

/-- Zero-forcing keeps the byte of a position that is not erased (R164). -/
theorem zeroForce_of_not_erased {bera : List Bit} {cw : List Byte} (h : bera.length = cw.length) {b : Nat}
    (hb : b ∉ erasedPositions bera) : (zeroForce bera cw)[b]? = cw[b]? := by
  rw [mem_erasedPositions] at hb
  rcases lt_or_ge b cw.length with hlt | hge
  · have he : bera[b]? = some false := by
      rw [List.getElem?_eq_getElem (h ▸ hlt)] at hb ⊢
      simpa using hb
    rw [zeroForce_getElem? he (List.getElem?_eq_getElem hlt), List.getElem?_eq_getElem hlt]
    rfl
  · rw [List.getElem?_eq_none hge, List.getElem?_eq_none (by simp [h, hge])]

/-- The erased positions, filtered as the statement of R165 counts them. -/
theorem erasedPositions_eq_filter (bera : List Bit) :
    erasedPositions bera = (List.range bera.length).filter fun b => bera[b]? == some true := by
  refine List.filter_congr fun b hb => ?_
  rw [List.getD_eq_getElem?_getD, List.getElem?_eq_getElem (List.mem_range.1 hb)]
  cases bera[b]'(List.mem_range.1 hb) <;> rfl

theorem exec_eramap {cera capera : List Bit} {skip plen kb : Nat} {cw : List Byte}
    (h : (Instr.eramap cera skip plen capera kb cw).wellFormed) (s : State) :
    exec (.eramap cera skip plen capera kb cw) s =
      .next (complete (.eramap (erasureSet cera skip plen capera kb cw.length)
        (zeroForce (erasureSet cera skip plen capera kb cw.length) cw)
        (erasureCount (erasureSet cera skip plen capera kb cw.length))) s) :=
  exec_eq_next_iff.2 ⟨h, rfl⟩

/-- The cap window of a well-formed `ERAMAP` lies in the codeword (R84). -/
theorem capWindow_of_wellFormed {cera capera : List Bit} {skip plen kb : Nat} {cw : List Byte}
    (h : (Instr.eramap cera skip plen capera kb cw).wellFormed) : kb + capera.length ≤ cw.length := by
  rw [Instr.wellFormed, shapeFault_eramap] at h
  by_contra hout
  rw [if_neg hout] at h
  cases h

/-- Settles O33: the erasure set in closed form; the bytes and the count follow from it. -/
theorem eramapClosedForm : Obligations.EramapClosedForm := by
  intro cera skip plen capera kb cw s h
  have hfit := capWindow_of_wellFormed h
  have hlen : (erasureSet cera skip plen capera kb cw.length).length = cw.length :=
    erasureSet_length cera skip plen capera kb cw.length
  refine ⟨_, _, _, exec_eramap h s, hlen, by simp, fun b hb => erasureSet_getElem? hfit hb,
    fun b hb he => ?_, fun b hb he => ?_, ?_⟩
  · exact zeroForce_of_erased hlen (mem_erasedPositions.2 ((erasureSet_getElem? hfit hb).2 he))
  · exact zeroForce_of_not_erased hlen fun hm =>
      he ((erasureSet_getElem? hfit hb).1 (mem_erasedPositions.1 hm))
  · rw [← length_erasedPositions, erasedPositions_eq_filter, hlen]

/-! ### One erased character (R166) -/

theorem getElem?_set_replicate_false {n i j : Nat} (hi : i < n) :
    ((List.replicate n false).set i true)[j]? = some true ↔ j = i := by
  rw [List.getElem?_set]
  split
  · next h => subst h; simp [hi]
  · next h => simp [List.getElem?_replicate, Ne.symm h]

/-- One erased character, at `skip` or above, erases the positions it overlaps and no others. -/
theorem erasedBy_one_char {n i : Nat} (hi : i < n) (skip plen p kb b : Nat) :
    ErasedBy ((List.replicate n false).set i true) skip plen (List.replicate p false) kb b ↔
      skip ≤ i ∧ (5 * i / 8 = plen + b ∨ (5 * i + 4) / 8 = plen + b) := by
  have hcap (g : Nat) : (List.replicate p false)[g]? ≠ some true := by simp [List.getElem?_replicate]
  simp [ErasedBy, hcap, getElem?_set_replicate_false hi]

theorem pairwise_lt_erasedPositions (bera : List Bit) : (erasedPositions bera).Pairwise (· < ·) :=
  List.pairwise_lt_range.filter _

/-- Settles O34: both lists ascend, and by the closed form they have the same positions. -/
theorem eramapSourceCorners : Obligations.EramapSourceCorners := by
  intro i hi
  refine (pairwise_lt_erasedPositions _).eq_of_mem_iff ?_ fun b => ?_
  · split_ifs <;> simp
    omega
  · rw [mem_erasedPositions]
    rcases lt_or_ge b 40 with hb | hb
    · rw [erasureSet_getElem? (by simp) hb, erasedBy_one_char hi]
      split_ifs <;> simp <;> omega
    · rw [List.getElem?_eq_none (by simpa using hb)]
      split_ifs <;> simp <;> omega

end Sys2Proof.Machine
end

section
/-! PROOF. `HC.ENCODE` and the ends of `HC.DECODE` and `HC.ISCORRUPT` (spec/45_host_pipeline.md rules R180 to
R190): the length checks, the string that the encoding steps make, and the errors that can come up. -/

namespace Sys2Proof.Machine

/-! ### The length checks (EN1, DE1) -/

theorem hcEncode_of_length_ne (rs : ReedSolomon) {key : List Byte} {s : State}
    (h : key.length ≠ s.cfg.keyByteCount) : hcEncode rs key s = .next (s, .error .badDataLen) :=
  if_pos h

theorem hcAnalyse_of_length_ne {id : List CodeUnit} {s : State}
    (h : id.length ≠ s.cfg.encodedCharCount) : hcAnalyse id s = .next (s, .error .badIdLen) :=
  if_pos h

/-- An error of the analysis is the error of `HC.DECODE` (R210). -/
theorem hcDecode_of_hcAnalyse_error {id : List CodeUnit} {s t : State} {e : Status} (rs : ReedSolomon)
    (h : hcAnalyse id s = .next (t, .error e)) : hcDecode rs id s = .next (t, .error e) :=
  andThen_error h

/-- `HC.ISCORRUPT` is a verdict on the analysis, whatever it arrived at (R190). -/
theorem hcIscorrupt_of_hcAnalyse {id : List CodeUnit} {s t : State} {r : Except Status Analysis}
    (rs : ReedSolomon) (h : hcAnalyse id s = .next (t, r)) :
    hcIscorrupt rs id s = .next (t, .ok (corruptVerdict rs r)) := by
  simp only [hcIscorrupt, h]

/-- Settles O38: both programmes test the length before they issue a command. -/
theorem lengthChecksComeFirst : Obligations.LengthChecksComeFirst :=
  ⟨fun rs _ _ => hcEncode_of_length_ne rs, fun rs _ _ h =>
    ⟨hcDecode_of_hcAnalyse_error rs (hcAnalyse_of_length_ne h),
      hcIscorrupt_of_hcAnalyse rs (hcAnalyse_of_length_ne h)⟩⟩

/-! ### What the encoding steps make -/

/-- The buffer that step EN4 renders: prefix, key and base parity (R58). -/
def sentBuffer (rs : ReedSolomon) (cfg : Cfg) (key : List Byte) : List Byte :=
  cfg.prefixBytes ++ key ++ baseParity cfg (rs.encode key)

/-- The string that steps EN6 and EN7 make of a text. -/
def castString (cfg : Cfg) (cap : List Byte) (text : List CodeUnit) : List CodeUnit :=
  castText cfg 0 cap
    (splice text 0 (capenc (slice text 0 cfg.prefixCap.length) cfg.prefixCap minPrefix).1)

/-- The string `HC.ENCODE` answers when the text has the configured length (EN5). -/
def sentString (rs : ReedSolomon) (cfg : Cfg) (key : List Byte) : List CodeUnit :=
  castString cfg (capParity cfg (rs.encode key)) (b32enc (sentBuffer rs cfg key))

/-- Steps EN2 to EN8: the length check has passed. -/
theorem hcEncode_of_length_eq (rs : ReedSolomon) {key : List Byte} {s : State}
    (h : key.length = s.cfg.keyByteCount) : hcEncode rs key s =
      andThen (issue (.b32enc (sentBuffer rs s.cfg key)))
        (fun r =>
          if r.textPort.length ≠ s.cfg.encodedCharCount then failWith .internalGeneratedBadLen
          else andThen (castMarker s.cfg r.textPort)
            (castSegments s.cfg 0 (capParity s.cfg (rs.encode key)))) s :=
  if_neg (not_not.2 h)

/-- All that `HC.ENCODE` does with a key of the configured length under a legal CFG. -/
theorem hcEncode_eq (rs : ReedSolomon) {key : List Byte} {s : State} (hl : s.cfg.legal = true)
    (hk : key.length = s.cfg.keyByteCount) :
    ∃ t, t.cfg = s.cfg ∧ hcEncode rs key s =
      if (b32enc (sentBuffer rs s.cfg key)).length ≠ s.cfg.encodedCharCount then
        .next (t, .error .internalGeneratedBadLen)
      else .next (t, .ok (sentString rs s.cfg key)) := by
  have henc := issue_ok (i := .b32enc (sentBuffer rs s.cfg key)) hl rfl rfl
  generalize hu : complete (.b32enc (b32enc (sentBuffer rs s.cfg key))) s = u at henc
  have hcfg : u.cfg = s.cfg := hu ▸ rfl
  rw [hcEncode_of_length_eq rs hk, andThen_ok henc, ite_programme]
  by_cases hlen : (b32enc (sentBuffer rs s.cfg key)).length ≠ s.cfg.encodedCharCount
  · exact ⟨u, hcfg, by rw [if_pos hlen]; exact if_pos hlen⟩
  · have hmark := castMarker_eq (cfg := s.cfg) (text := b32enc (sentBuffer rs s.cfg key))
      (s := u) (hcfg ▸ hl)
    obtain ⟨t, hseg, ht⟩ := castSegments_eq s.cfg (capParity s.cfg (rs.encode key)) 0 _ _
      (show (complete _ u).cfg.legal = true from hcfg ▸ hl)
    refine ⟨t, ht.trans hcfg, ?_⟩
    rw [if_neg hlen]
    refine (if_neg hlen).trans ((andThen_ok hmark).trans (hseg.trans ?_))
    rw [hcfg]
    rfl

/-- No symbol has a lower case. -/
theorem toUpper_of_mem_alph {c : CodeUnit} (h : c ∈ alph) : toUpper c = c := by
  have hle : c.toNat ≤ 90 := by
    by_contra hgt
    exact (rejected_iff_not_mem_alph c).1 (.inr (.inl (Nat.not_le.1 hgt))) h
  have hlower : isLower c = false := by
    rw [Bool.eq_false_iff, Ne, isLower_iff]
    omega
  rw [toUpper, hlower]
  rfl

theorem map_toUpper_b32enc (data : List Byte) : (b32enc data).map toUpper = b32enc data :=
  (List.map_congr_left fun _ hc => toUpper_of_mem_alph (mem_alph_of_mem_b32enc hc)).trans
    (List.map_id _)

/-- What a string carries for the decoder: casing aside it is the rendering of the buffer, and each segment
holds its cap-parity byte in the case of its letters (R57, R182). -/
structure Carries (cfg : Cfg) (buffer cap : List Byte) (id : List CodeUnit) : Prop where
  length_eq : id.length = cfg.encodedCharCount
  map_toUpper : id.map toUpper = b32enc buffer
  segment : ∀ g b, cap[g]? = some b → ∃ run,
    slice id (segmentStart cfg g) cfg.capSegmentCharCount = (capenc run (bits8 b) minByte).1

/-- A text of the configured length, with at most P cap-parity bytes cast into it, carries them. -/
theorem carries_castString {cfg : Cfg} {buffer cap : List Byte} (hl : cfg.legal = true)
    (hlen : (b32enc buffer).length = cfg.encodedCharCount) (hcap : cap.length ≤ cfg.capParityByteCount) :
    Carries cfg buffer cap (castString cfg cap (b32enc buffer)) := by
  have hfit := legal_segments_fit hl
  have hsegs : cap.length * cfg.capSegmentCharCount ≤ cfg.capParityByteCount * cfg.capSegmentCharCount :=
    Nat.mul_le_mul_right _ hcap
  generalize hout : (capenc (slice (b32enc buffer) 0 cfg.prefixCap.length) cfg.prefixCap minPrefix).1 = out
  have hmarker : 0 + cfg.prefixCap.length ≤ (b32enc buffer).length := by omega
  have houtlen : out.length = cfg.prefixCap.length := by
    rw [← hout, length_capenc, slice_length_of_le hmarker]
  have hspl : (splice (b32enc buffer) 0 out).length = (b32enc buffer).length :=
    splice_length (by omega)
  have hstart : segmentStart cfg 0 = cfg.prefixCap.length := by simp [segmentStart]
  obtain ⟨hlength, hupper, -, hseg⟩ :=
    castText_spec cfg cap 0 (splice (b32enc buffer) 0 out) (by omega)
  rw [castString, hout]
  refine ⟨hlength.trans (hspl.trans hlen), ?_, fun g b hb => ?_⟩
  · rw [hupper, map_splice_eq toUpper hmarker (by rw [← hout]; exact map_toUpper_capenc _ _ _),
      map_toUpper_b32enc]
  · have hcast := hseg g b hb
    rw [Nat.zero_add] at hcast
    exact ⟨_, hcast⟩

/-! ### HC.ENCODE (R182) -/

theorem capParity_length_le (cfg : Cfg) (par : List Byte) :
    (capParity cfg par).length ≤ cfg.capParityByteCount := by
  rw [capParity, slice_length]
  exact Nat.min_le_left _ _

theorem baseParity_length {rs : ReedSolomon} {cfg : Cfg} (hP : rs.ParityLength cfg) (key : List Byte) :
    (baseParity cfg (rs.encode key)).length = cfg.baseParityByteCount := by
  rw [baseParity, List.length_take, hP key]
  omega

theorem sentBuffer_length {rs : ReedSolomon} {cfg : Cfg} {key : List Byte} (hP : rs.ParityLength cfg)
    (hk : key.length = cfg.keyByteCount) : (sentBuffer rs cfg key).length =
      cfg.prefixBytes.length + (cfg.keyByteCount + cfg.baseParityByteCount) := by
  rw [sentBuffer, List.length_append, List.length_append, baseParity_length hP, hk, Nat.add_assoc]

/-- The rendering of the whole buffer has the configured length, so EN5 never fails (R182 (a)). -/
theorem b32enc_sentBuffer_length {rs : ReedSolomon} {cfg : Cfg} {key : List Byte}
    (hl : cfg.legal = true) (hP : rs.ParityLength cfg) (hk : key.length = cfg.keyByteCount) :
    (b32enc (sentBuffer rs cfg key)).length = cfg.encodedCharCount := by
  rw [b32enc_length, sentBuffer_length hP hk, legal_encodedCharCount hl, Nat.add_assoc]

/-- `HC.ENCODE` of a key under a legal CFG, with the parity of R176: it ends with a string that carries the
buffer and the cap parity. -/
theorem hcEncode_carries {rs : ReedSolomon} {key : List Byte} {s : State} (hl : s.cfg.legal = true)
    (hP : rs.ParityLength s.cfg) (hk : key.length = s.cfg.keyByteCount) :
    ∃ t id, hcEncode rs key s = .next (t, .ok id) ∧ t.cfg = s.cfg ∧
      Carries s.cfg (sentBuffer rs s.cfg key) (capParity s.cfg (rs.encode key)) id := by
  have hlen := b32enc_sentBuffer_length hl hP hk
  obtain ⟨t, ht, henc⟩ := hcEncode_eq rs hl hk
  rw [if_neg (not_not.2 hlen)] at henc
  exact ⟨t, _, henc, ht, carries_castString hl hlen (capParity_length_le _ _)⟩

/-- Settles O39: the string carries the buffer. -/
theorem encodeRendersTheKey : Obligations.EncodeRendersTheKey := by
  intro rs key s hl hP hk
  obtain ⟨t, id, henc, ht, hid⟩ := hcEncode_carries hl hP hk
  exact ⟨t, id, henc, ht, hid.length_eq, hid.map_toUpper⟩

/-- A command is performed under a legal CFG only (R26). -/
theorem legal_of_issue {i : Instr} {s t : State} {r : Except Status Results}
    (h : issue i s = .next (t, r)) : s.cfg.legal = true := by
  by_contra hl
  rw [issue, step_of_illegal_cfg (present_cmd _ s) (Bool.eq_false_iff.2 hl)] at h
  cases h

/-- Whatever the primitive answers, a string that comes out of `HC.ENCODE` has passed EN5. -/
theorem length_of_hcEncode {rs : ReedSolomon} {key : List Byte} {s t : State} {id : List CodeUnit}
    (h : hcEncode rs key s = .next (t, .ok id)) : id.length = s.cfg.encodedCharCount := by
  by_cases hk : key.length = s.cfg.keyByteCount
  · have hl : s.cfg.legal = true := by
      rw [hcEncode_of_length_eq rs hk] at h
      obtain ⟨u, r, hissue, -⟩ := andThen_eq_ok h
      exact legal_of_issue hissue
    obtain ⟨t', -, henc⟩ := hcEncode_eq rs hl hk
    rw [h] at henc
    by_cases hlen : (b32enc (sentBuffer rs s.cfg key)).length = s.cfg.encodedCharCount
    · rw [if_neg (not_not.2 hlen)] at henc
      cases henc
      exact (carries_castString hl hlen (capParity_length_le _ _)).length_eq
    · rw [if_pos hlen] at henc
      cases henc
  · rw [hcEncode_of_length_ne rs hk] at h
    cases h

/-- Settles O45: EN5 on the way out, DE1 on the way in. -/
theorem lengthInvariants : Obligations.LengthInvariants := by
  refine fun rs s => ⟨fun key t id => length_of_hcEncode, fun id hid => ?_⟩
  obtain ⟨hdec, hcor⟩ := lengthChecksComeFirst.2 rs id s hid
  exact ⟨⟨s, hdec⟩, s, hcor⟩

/-! ### The ends of HC.DECODE and HC.ISCORRUPT -/

/-- All the errors of steps DE1 to DE9 (R189 (a)): the text is over `ALPH`, so `BadInput` is not one. -/
theorem hcAnalyse_ends (id : List CodeUnit) {s : State} (hl : s.cfg.legal = true) :
    ∃ t r, hcAnalyse id s = .next (t, r) ∧ t.cfg = s.cfg ∧ ∀ e, r = .error e →
      e = .badIdLen ∨ e = .unexpectedEof ∨ e = .prefixMismatch ∨ e = .tooManyErrors := by
  by_cases hm : id.length = s.cfg.encodedCharCount
  · obtain ⟨u, hu, h⟩ := hcAnalyse_eq id s hl hm
    cases hd : b32dec (canonicalText id) with
    | error e =>
      rw [hd] at h
      refine ⟨u, _, h, hu, fun e' he => ?_⟩
      cases he
      rcases b32decFrom_error hd with rfl | rfl
      · exact absurd hd (b32dec_ne_badInput fun _ => mem_alph_of_mem_canonicalText)
      · exact .inr (.inl rfl)
    | ok full =>
      rw [hd] at h
      rcases analyseCodeword_eq (cera := charErasures id)
        (res := capchk (segmentResults s.cfg (correctedText id) (charErasures id)))
        (hu ▸ hl : u.cfg.legal = true) (full_length hl hm hd).ge with ⟨-, ha⟩ | ⟨-, t, ht, ha⟩
      · refine ⟨u, _, h.trans ha, hu, fun e he => ?_⟩
        cases he
        exact .inr (.inr (.inl rfl))
      · dsimp only at ha
        split at ha
        · refine ⟨t, _, h.trans ha, ht.trans hu, fun e he => ?_⟩
          cases he
          exact .inr (.inr (.inr rfl))
        · exact ⟨t, _, h.trans ha, ht.trans hu, fun e he => nomatch he⟩
  · refine ⟨s, _, hcAnalyse_of_length_ne hm, rfl, fun e he => ?_⟩
    cases he
    exact .inl rfl

/-- The only error of steps DE10 and DE11 (R188). -/
theorem correctedKey_error {rs : ReedSolomon} {cfg : Cfg} {a : Analysis} {e : Status}
    (h : correctedKey rs cfg a = .error e) : e = .uncorrectable := by
  unfold correctedKey at h
  split_ifs at h
  split at h
  · cases h
  · cases h
    rfl

/-- Settles O40: the analysis ends in every case, and the two programmes go on from where it ends. -/
theorem decodeEndsAndNeverWithBadInput : Obligations.DecodeEndsAndNeverWithBadInput := by
  intro rs id s hl
  obtain ⟨t, r, h, ht, herr⟩ := hcAnalyse_ends id hl
  have hcor := hcIscorrupt_of_hcAnalyse rs h
  refine ⟨?_, ⟨t, _, hcor⟩, fun t' e hdec hne => ?_⟩
  · cases r with
    | error e =>
      refine ⟨t, _, hcDecode_of_hcAnalyse_error rs h, ht, fun e' he => ?_⟩
      cases he
      rcases herr e rfl with he | he | he | he <;> simp [he]
    | ok a =>
      refine ⟨t, _, hcDecode_of_hcAnalyse rs h, ht, fun e he => ?_⟩
      simp [correctedKey_error he]
  · cases r with
    | error e' =>
      rw [hcDecode_of_hcAnalyse_error rs h] at hdec
      cases hdec
      exact hcor
    | ok a =>
      rw [hcDecode_of_hcAnalyse rs h] at hdec
      obtain ⟨-, hkey⟩ := Prod.mk.inj (Host.Outcome.next.inj hdec)
      exact absurd (correctedKey_error hkey) hne

end Sys2Proof.Machine
end

section
/-! PROOF. What a received string leads to, held against the codeword that was sent (spec/45_host_pipeline.md
rules R184 to R188), and correction within the budget (R191 (b)). -/

namespace Sys2Proof.Machine

/-! ### The codeword that was sent -/

theorem getElem?_slice_of_lt {α : Type} (x : List α) (a : Nat) {n i : Nat} (hi : i < n) :
    (slice x a n)[i]? = x[a + i]? := by
  rw [slice_getElem?, if_pos hi]

/-- A byte of the assembled codeword before the cap parity is a byte of the full buffer (R185). -/
theorem assembleCodeword_getElem?_data {cfg : Cfg} {full : List Byte} (res : List OptByte)
    (hf : full.length = cfg.prefixBytes.length + (cfg.keyByteCount + cfg.baseParityByteCount)) {b : Nat}
    (hb : b < cfg.keyByteCount + cfg.baseParityByteCount) :
    (assembleCodeword cfg full res)[b]? = full[cfg.prefixBytes.length + b]? := by
  rw [assembleCodeword, List.getElem?_append_left (by rw [slice_length_of_le hf.ge]; exact hb),
    getElem?_slice_of_lt _ _ hb]

/-- A cap-parity byte of the assembled codeword (R185). -/
theorem assembleCodeword_getElem?_cap {cfg : Cfg} {full : List Byte} (res : List OptByte)
    (hf : full.length = cfg.prefixBytes.length + (cfg.keyByteCount + cfg.baseParityByteCount)) (g : Nat) :
    (assembleCodeword cfg full res)[cfg.keyByteCount + cfg.baseParityByteCount + g]? =
      res[g]?.map fun r => r.getD 0x00 := by
  have hlen := slice_length_of_le hf.ge
  rw [assembleCodeword, List.getElem?_append_right (by omega), hlen, Nat.add_sub_cancel_left,
    List.getElem?_map]

/-- The parity is the base parity, then the cap parity (R181). -/
theorem baseParity_append_capParity {rs : ReedSolomon} {cfg : Cfg} (hP : rs.ParityLength cfg)
    (key : List Byte) :
    baseParity cfg (rs.encode key) ++ capParity cfg (rs.encode key) = rs.encode key := by
  have hrest : ((rs.encode key).drop cfg.baseParityByteCount).length ≤ cfg.capParityByteCount := by
    rw [List.length_drop, hP key]
    omega
  rw [baseParity, capParity, slice, List.take_of_length_le hrest, List.take_append_drop]

/-- The codeword that was sent is what the receiving steps assemble from the whole buffer and the whole cap
parity. -/
theorem assembleCodeword_sent {rs : ReedSolomon} {cfg : Cfg} {key : List Byte} (hP : rs.ParityLength cfg)
    (hk : key.length = cfg.keyByteCount) :
    assembleCodeword cfg (sentBuffer rs cfg key) ((capParity cfg (rs.encode key)).map some) =
      key ++ rs.encode key := by
  have hdata : slice (sentBuffer rs cfg key) cfg.prefixBytes.length
      (cfg.keyByteCount + cfg.baseParityByteCount) = key ++ baseParity cfg (rs.encode key) := by
    rw [slice, sentBuffer, List.append_assoc, List.drop_left, List.take_of_length_le]
    rw [List.length_append, hk, baseParity_length hP]
  have hcap : ((capParity cfg (rs.encode key)).map some).map (fun r => r.getD 0x00) =
      capParity cfg (rs.encode key) := by simp
  rw [assembleCodeword, hdata, hcap, List.append_assoc, baseParity_append_capParity hP]

theorem sentCodeword_length {rs : ReedSolomon} {cfg : Cfg} {key : List Byte} (hP : rs.ParityLength cfg)
    (hk : key.length = cfg.keyByteCount) : (key ++ rs.encode key).length =
      cfg.keyByteCount + cfg.baseParityByteCount + cfg.capParityByteCount := by
  rw [List.length_append, hP key, hk, Nat.add_assoc]

/-! ### The codeword that was received -/

/-- The erasure set of a received string in closed form. -/
theorem mem_erasedPositions_received {cfg : Cfg} {id : List CodeUnit} {b : Nat}
    (hb : b < cfg.keyByteCount + cfg.baseParityByteCount + cfg.capParityByteCount) :
    b ∈ erasedPositions (receivedErasures cfg id) ↔
      ErasedBy (charErasures id) cfg.prefixCap.length cfg.prefixBytes.length
        ((recoveredCap cfg id).map Option.isNone) (cfg.keyByteCount + cfg.baseParityByteCount) b := by
  rw [mem_erasedPositions, receivedErasures, erasureSet_getElem? (by simp) hb]

theorem lt_of_mem_erasedPositions_received {cfg : Cfg} {id : List CodeUnit} {b : Nat}
    (hb : b ∈ erasedPositions (receivedErasures cfg id)) :
    b < cfg.keyByteCount + cfg.baseParityByteCount + cfg.capParityByteCount := by
  rw [← receivedErasures_length cfg id]
  exact (List.getElem?_eq_some_iff.1 (mem_erasedPositions.1 hb)).1

section
variable {cfg : Cfg} {id : List CodeUnit} {full : List Byte}
  (hf : full.length = cfg.prefixBytes.length + (cfg.keyByteCount + cfg.baseParityByteCount))
include hf

theorem receivedCodeword_length :
    (receivedCodeword cfg id full).length =
      cfg.keyByteCount + cfg.baseParityByteCount + cfg.capParityByteCount := by
  rw [receivedCodeword, zeroForce_length, receivedErasures_length, assembleCodeword_length hf,
    recoveredCap_length]
  exact Nat.min_self _

theorem receivedErasures_length_eq :
    (receivedErasures cfg id).length = (assembleCodeword cfg full (recoveredCap cfg id)).length := by
  rw [receivedErasures_length, assembleCodeword_length hf, recoveredCap_length]

theorem receivedCodeword_of_erased {b : Nat}
    (hb : b ∈ erasedPositions (receivedErasures cfg id)) :
    (receivedCodeword cfg id full)[b]? = some 0x00 :=
  zeroForce_of_erased (receivedErasures_length_eq hf) hb

theorem receivedCodeword_of_not_erased {b : Nat}
    (hb : b ∉ erasedPositions (receivedErasures cfg id)) :
    (receivedCodeword cfg id full)[b]? = (assembleCodeword cfg full (recoveredCap cfg id))[b]? :=
  zeroForce_of_not_erased (receivedErasures_length_eq hf) hb

end

/-! ### From the codeword to the key -/

/-- The codeword begins with the key where it is right on the key's bytes. -/
theorem take_eq_key {key parity w : List Byte} (h : ∀ b, b < key.length → w[b]? = (key ++ parity)[b]?) :
    w.take key.length = key := by
  apply List.ext_getElem?
  intro b
  rcases lt_or_ge b key.length with hb | hb
  · rw [List.getElem?_take_of_lt hb, h b hb, List.getElem?_append_left hb]
  · rw [List.getElem?_eq_none hb, List.getElem?_eq_none (by rw [List.length_take]; omega)]

/-- Steps DE9 to DE11 of a string that reaches correction: within the budget, where the primitive corrects
the received codeword, and where a clean codeword begins with the key, `HC.DECODE` ends with the key. -/
theorem hcDecode_of_corrected {rs : ReedSolomon} {cfg : Cfg} {key full : List Byte} {id : List CodeUnit}
    {s : State} (hs : s.cfg = cfg) (hl : cfg.legal = true) (hk : key.length = cfg.keyByteCount)
    (hm : id.length = cfg.encodedCharCount) (hr : ReachesCorrection cfg id full)
    (hbudget : erasureCount (receivedErasures cfg id) ≤ erasureBudget cfg)
    (hfix : rs.correct (receivedCodeword cfg id full) (erasedPositions (receivedErasures cfg id)) =
      some (key ++ rs.encode key))
    (hclean : erasedPositions (receivedErasures cfg id) = [] →
      rs.isCorrupted (receivedCodeword cfg id full) = false →
      (receivedCodeword cfg id full).take key.length = key) :
    ∃ u, hcDecode rs id s = .next (u, .ok key) := by
  subst hs
  obtain ⟨t, ht, h⟩ := hcAnalyse_of_reachesCorrection hl hm hr
  rw [if_neg (Nat.not_lt.2 hbudget)] at h
  refine ⟨t, (hcDecode_of_hcAnalyse rs h).trans ?_⟩
  congr 2
  rw [ht]
  by_cases hdamaged : erasureCount (receivedErasures s.cfg id) ≠ 0 ∨
      rs.isCorrupted (receivedCodeword s.cfg id full) = true
  · rw [correctedKey_of_corrected s.cfg hdamaged hfix, ← hk, List.take_left]
  · obtain ⟨hzero, hok⟩ := not_or.1 hdamaged
    have hcount := not_not.1 hzero
    have hsound := Bool.eq_false_iff.2 hok
    have hnone : erasedPositions (receivedErasures s.cfg id) = [] := by
      rw [← List.length_eq_zero_iff, length_erasedPositions, hcount]
    rw [correctedKey_of_clean s.cfg hcount hsound, ← hk]
    exact congrArg Except.ok (hclean hnone hsound)

/-- Damage within half the capacity is corrected: an undetected error counts twice against B + P, an erasure
once (G2). -/
theorem correct_of_damage_le {rs : ReedSolomon} {cfg : Cfg} {key full : List Byte} {id : List CodeUnit}
    (hP : rs.ParityLength cfg) (hfix : rs.CorrectsErrorsAndErasures cfg)
    (hk : key.length = cfg.keyByteCount)
    (hf : full.length = cfg.prefixBytes.length + (cfg.keyByteCount + cfg.baseParityByteCount))
    (hd : damage cfg (key ++ rs.encode key) id full ≤ erasureBudget cfg) :
    rs.correct (receivedCodeword cfg id full) (erasedPositions (receivedErasures cfg id)) =
      some (key ++ rs.encode key) := by
  have hlen := receivedCodeword_length (id := id) hf
  refine hfix key _ _ hk (hlen.trans (sentCodeword_length hP hk).symm) (nodup_erasedPositions _)
    (fun b hb => hlen ▸ lt_of_mem_erasedPositions_received hb) ?_
    (fun b hb => receivedCodeword_of_erased hf hb)
  rw [damage, ← length_erasedPositions, erasureBudget] at hd
  omega

/-- A codeword is corrected to itself, so two keys whose codewords are close to one word are the same key. -/
theorem correct_codeword {rs : ReedSolomon} {cfg : Cfg} (hfix : rs.CorrectsErrorsAndErasures cfg)
    {key : List Byte} (hk : key.length = cfg.keyByteCount) :
    rs.correct (key ++ rs.encode key) [] = some (key ++ rs.encode key) := by
  refine hfix key _ [] hk rfl List.nodup_nil (by simp) ?_ (by simp)
  rw [wrongPositions_eq_nil fun _ _ _ => rfl]
  simp

/-- Settles O46: the damage is within the primitive's capacity; a codeword that the checksum test accepts
without an erasure is corrected to itself and to the sent one, so it is the sent one. -/
theorem damageWithinBudgetIsCorrected : Obligations.DamageWithinBudgetIsCorrected := by
  intro rs key s hl hP hfix haccepts hk
  obtain ⟨t, id, henc, ht, hid⟩ := hcEncode_carries hl hP hk
  refine ⟨t, id, henc, fun received full hlen hr hd => ?_⟩
  have hm : received.length = s.cfg.encodedCharCount := hlen.trans hid.length_eq
  have hf := full_length hl hm hr.1
  have hcorrect := correct_of_damage_le hP hfix hk hf hd
  refine hcDecode_of_corrected ht hl hk hm hr ((Nat.le_add_right _ _).trans hd) hcorrect
    fun hnone hsound => ?_
  obtain ⟨key', hk', hword⟩ := haccepts _ (receivedCodeword_length hf) hsound
  rw [hnone, hword, correct_codeword hfix hk'] at hcorrect
  rw [hword, Option.some.inj hcorrect, List.take_left]

end Sys2Proof.Machine
end

section
/-! PROOF. Strings that differ from the sent one in case and by confusable characters (spec/45_host_pipeline.md
rule R191 (b)): the text and with it the data bytes come through, so that only cap-parity bytes are damaged. -/

namespace Sys2Proof.Machine

/-! ### The codeword outside the erasures -/

/-- A cap-parity result that is `Erased` erases its position. -/
theorem mem_erasedPositions_of_recoveredCap {cfg : Cfg} {id : List CodeUnit} {g : Nat}
    (h : (recoveredCap cfg id)[g]? = some none) :
    cfg.keyByteCount + cfg.baseParityByteCount + g ∈ erasedPositions (receivedErasures cfg id) := by
  have hg := (List.getElem?_eq_some_iff.1 h).1
  rw [recoveredCap_length] at hg
  refine (mem_erasedPositions_received (Nat.add_lt_add_left hg _)).2 (.inl ⟨g, ?_, rfl⟩)
  rw [List.getElem?_map, h]
  rfl

section
variable {rs : ReedSolomon} {cfg : Cfg} {key full : List Byte} {id : List CodeUnit}
  (hP : rs.ParityLength cfg) (hk : key.length = cfg.keyByteCount)
  (hf : full.length = cfg.prefixBytes.length + (cfg.keyByteCount + cfg.baseParityByteCount))
include hP hk hf

/-- A data byte that is not erased is right where the full buffer is. -/
theorem receivedCodeword_data {b : Nat} (hb : b < cfg.keyByteCount + cfg.baseParityByteCount)
    (hne : b ∉ erasedPositions (receivedErasures cfg id))
    (hbyte : full[cfg.prefixBytes.length + b]? =
      (sentBuffer rs cfg key)[cfg.prefixBytes.length + b]?) :
    (receivedCodeword cfg id full)[b]? = (key ++ rs.encode key)[b]? := by
  rw [receivedCodeword_of_not_erased hf hne, assembleCodeword_getElem?_data _ hf hb, hbyte,
    ← assembleCodeword_sent hP hk, assembleCodeword_getElem?_data _ (sentBuffer_length hP hk) hb]

/-- A cap-parity byte that is not erased is right where what was recovered is. -/
theorem receivedCodeword_cap {g : Nat} (hg : g < cfg.capParityByteCount)
    (hne : cfg.keyByteCount + cfg.baseParityByteCount + g ∉ erasedPositions (receivedErasures cfg id))
    (hcap : ∀ x, (recoveredCap cfg id)[g]? = some (some x) →
      (capParity cfg (rs.encode key))[g]? = some x) :
    (receivedCodeword cfg id full)[cfg.keyByteCount + cfg.baseParityByteCount + g]? =
      (key ++ rs.encode key)[cfg.keyByteCount + cfg.baseParityByteCount + g]? := by
  rw [receivedCodeword_of_not_erased hf hne, assembleCodeword_getElem?_cap _ hf,
    ← assembleCodeword_sent hP hk, assembleCodeword_getElem?_cap _ (sentBuffer_length hP hk),
    List.getElem?_map]
  have hlt : g < (recoveredCap cfg id).length := by rwa [recoveredCap_length]
  have hget := List.getElem?_eq_getElem hlt
  cases hres : (recoveredCap cfg id)[g] with
  | none => exact absurd (mem_erasedPositions_of_recoveredCap (hget.trans (congrArg some hres))) hne
  | some x =>
    rw [hget, hres, hcap x (hget.trans (congrArg some hres))]
    rfl

/-- The whole codeword is right outside the erasures where the data bytes and the recovered bytes are. -/
theorem receivedCodeword_of_right
    (hdata : ∀ b, b < cfg.keyByteCount + cfg.baseParityByteCount →
      b ∉ erasedPositions (receivedErasures cfg id) →
      full[cfg.prefixBytes.length + b]? = (sentBuffer rs cfg key)[cfg.prefixBytes.length + b]?)
    (hcap : ∀ (g : Nat) (x : Byte), (recoveredCap cfg id)[g]? = some (some x) →
      (capParity cfg (rs.encode key))[g]? = some x) {b : Nat}
    (hb : b < (receivedCodeword cfg id full).length)
    (hne : b ∉ erasedPositions (receivedErasures cfg id)) :
    (receivedCodeword cfg id full)[b]? = (key ++ rs.encode key)[b]? := by
  rw [receivedCodeword_length hf] at hb
  rcases lt_or_ge b (cfg.keyByteCount + cfg.baseParityByteCount) with hlt | hge
  · exact receivedCodeword_data hP hk hf hlt hne (hdata b hlt hne)
  · obtain ⟨g, rfl⟩ := Nat.exists_eq_add_of_le hge
    exact receivedCodeword_cap hP hk hf (by omega) hne (hcap g)

end

/-! ### A text that comes through -/

/-- A string that is corrected to the rendering of the sent buffer reaches correction with that buffer. -/
theorem reachesCorrection_of_canonicalText {rs : ReedSolomon} {cfg : Cfg} {key : List Byte}
    {id : List CodeUnit} (h : canonicalText id = b32enc (sentBuffer rs cfg key)) :
    ReachesCorrection cfg id (sentBuffer rs cfg key) :=
  ⟨by rw [h, b32dec_b32enc], by rw [sentBuffer, List.append_assoc, slice_append_left]⟩

/-- Without an erased character only cap-parity positions are erased, those of the `Erased` results. -/
theorem mem_erasedPositions_of_no_erased_char {cfg : Cfg} {id : List CodeUnit} (hera : true ∉ charErasures id)
    {b : Nat} (hb : b ∈ erasedPositions (receivedErasures cfg id)) :
    cfg.keyByteCount + cfg.baseParityByteCount ≤ b := by
  rcases (mem_erasedPositions_received (lt_of_mem_erasedPositions_received hb)).1 hb with
    ⟨g, -, rfl⟩ | ⟨i, -, hi, -⟩
  · exact Nat.le_add_right _ _
  · exact absurd (List.mem_of_getElem? hi) hera

section
variable {rs : ReedSolomon} {cfg : Cfg} {key : List Byte} {id : List CodeUnit}
  (hP : rs.ParityLength cfg) (hk : key.length = cfg.keyByteCount) (hera : true ∉ charErasures id)
include hP hk hera

/-- Where the sent buffer comes through without an erased character, every data byte is right. -/
theorem receivedCodeword_sentBuffer {b : Nat} (hb : b < cfg.keyByteCount + cfg.baseParityByteCount) :
    (receivedCodeword cfg id (sentBuffer rs cfg key))[b]? = (key ++ rs.encode key)[b]? :=
  receivedCodeword_data hP hk (sentBuffer_length hP hk) hb
    (fun hmem => Nat.not_le.2 hb (mem_erasedPositions_of_no_erased_char hera hmem)) rfl

/-- The damage is then at most P: erased and wrong positions are different cap-parity positions. -/
theorem damage_sentBuffer_le :
    damage cfg (key ++ rs.encode key) id (sentBuffer rs cfg key) ≤ cfg.capParityByteCount := by
  have hlen := receivedCodeword_length (id := id) (sentBuffer_length hP hk)
  generalize hera' : erasedPositions (receivedErasures cfg id) = erased
  generalize hwrong : wrongPositions (key ++ rs.encode key)
    (receivedCodeword cfg id (sentBuffer rs cfg key)) erased = wrong
  have hmem : ∀ b ∈ wrong, b < cfg.keyByteCount + cfg.baseParityByteCount + cfg.capParityByteCount ∧
      b ∉ erased ∧
      (receivedCodeword cfg id (sentBuffer rs cfg key))[b]? ≠ (key ++ rs.encode key)[b]? := by
    intro b hb
    rw [← hwrong, wrongPositions, hlen] at hb
    simpa using hb
  have hnodup : (erased ++ wrong).Nodup := by
    refine List.Nodup.append (hera' ▸ nodup_erasedPositions _) ?_
      fun b hb hb' => (hmem b hb').2.1 hb
    rw [← hwrong]
    exact List.nodup_range.filter _
  have hsub : erased ++ wrong ⊆
      List.range' (cfg.keyByteCount + cfg.baseParityByteCount) cfg.capParityByteCount := by
    intro b hb
    rw [List.mem_range'_1]
    rcases List.mem_append.1 hb with hb | hb
    · rw [← hera'] at hb
      exact ⟨mem_erasedPositions_of_no_erased_char hera hb, lt_of_mem_erasedPositions_received hb⟩
    · obtain ⟨hlt, -, hne⟩ := hmem b hb
      exact ⟨Nat.not_lt.1 fun hdata => hne (receivedCodeword_sentBuffer hP hk hera hdata), hlt⟩
  have hcount := (hnodup.subperm hsub).length_le
  rwa [List.length_append, List.length_range', ← hwrong, ← hera', length_erasedPositions] at hcount

end

/-! ### Flipped cases and confusable characters -/

/-- Every character of a sent string is a symbol, casing aside. -/
theorem Carries.toUpper_mem_alph {cfg : Cfg} {buffer cap : List Byte} {id : List CodeUnit}
    (hid : Carries cfg buffer cap id) {c : CodeUnit} (hc : c ∈ id) : toUpper c ∈ alph :=
  mem_alph_of_mem_b32enc (hid.map_toUpper ▸ List.mem_map_of_mem hc)

/-- Such a string is corrected to the sent text, without an erasure. -/
theorem canonicalText_of_caseOrConfusables {sent received : List CodeUnit}
    (hsym : ∀ c ∈ sent, toUpper c ∈ alph) (h : CaseOrConfusables sent received) :
    canonicalText received = sent.map toUpper ∧ true ∉ charErasures received := by
  obtain ⟨hlen, hchar⟩ := h
  have key (i : Nat) (hr : i < received.length) (hs : i < sent.length) :
      toUpper (transliterate received[i]).1 = toUpper sent[i] ∧ (transliterate received[i]).2 = false :=
    transliterate_of_standsFor (hsym _ (List.getElem_mem hs))
      (hchar i _ _ (List.getElem?_eq_getElem hs) (List.getElem?_eq_getElem hr))
  constructor
  · refine List.ext_getElem (by simp [hlen]) fun i hi hi' => ?_
    simp only [canonicalText, List.getElem_map]
    exact (key i (by simpa using hi) (by simpa using hi')).1
  · intro hmem
    obtain ⟨i, hi, htrue⟩ := List.getElem_of_mem hmem
    have hr : i < received.length := by simpa using hi
    have hfalse := (key i hr (hlen ▸ hr)).2
    simp [charErasures, hfalse] at htrue

theorem erasureBudget_source (p : List Byte) : erasureBudget (Cfg.source p) = 4 := by
  simp [erasureBudget, Cfg.source]

/-- Settles O47: the text comes through, so that the damage is at most P; within the budget it is corrected. -/
theorem caseAndConfusablesAreTolerated : Obligations.CaseAndConfusablesAreTolerated := by
  refine ⟨fun rs key s hl hP hfix hk => ?_, fun p => (erasureBudget_source p).ge⟩
  obtain ⟨t, id, henc, ht, hid⟩ := hcEncode_carries hl hP hk
  refine ⟨t, id, henc, fun received hrec => ?_⟩
  obtain ⟨hcanon, hera⟩ := canonicalText_of_caseOrConfusables (fun _ => hid.toUpper_mem_alph) hrec
  rw [hid.map_toUpper] at hcanon
  have hr := reachesCorrection_of_canonicalText hcanon
  have hdamage := damage_sentBuffer_le hP hk hera
  refine ⟨_, hr, hdamage, fun hbudget => ?_⟩
  have hd := hdamage.trans hbudget
  exact hcDecode_of_corrected ht hl hk (hrec.1.trans hid.length_eq) hr ((Nat.le_add_right _ _).trans hd)
    (correct_of_damage_le hP hfix hk (sentBuffer_length hP hk) hd)
    fun _ _ => take_eq_key fun b hb => receivedCodeword_sentBuffer hP hk hera (by omega)

end Sys2Proof.Machine
end

section
/-! PROOF. Strings that differ from the sent one by unmappable characters only (spec/45_host_pipeline.md rules
R189, R191 (e)): each such character becomes the placeholder, whose bits are zero, and what it overlaps is
erased; all else comes through. The sent string itself is the case of no such character. -/

namespace Sys2Proof.Machine

/-! ### The characters -/

section
variable {cfg : Cfg} {sent received : List CodeUnit}

theorem onlyErased_refl (cfg : Cfg) (sent : List CodeUnit) : OnlyErased cfg sent sent :=
  ⟨rfl, fun _ _ _ hc hd => .inl (Option.some.inj (hd.symm.trans hc))⟩

/-- What becomes of one character of such a string: it comes through, or it is erased and a placeholder, at a
place where this changes no prefix byte. -/
theorem onlyErased_char (hsym : ∀ c ∈ sent, toUpper c ∈ alph) (h : OnlyErased cfg sent received) {i : Nat}
    {c : CodeUnit} (hc : sent[i]? = some c) :
    ((charErasures received)[i]? = some false ∧ (correctedText received)[i]? = some c ∧
        (canonicalText received)[i]? = some (toUpper c)) ∨
      ((charErasures received)[i]? = some true ∧ (canonicalText received)[i]? = some 65 ∧
        (8 * cfg.prefixBytes.length ≤ 5 * i ∨ toUpper c = 65)) := by
  obtain ⟨hlen, hchar⟩ := h
  have hi : i < received.length := hlen ▸ (List.getElem?_eq_some_iff.1 hc).1
  have hd := List.getElem?_eq_getElem hi
  generalize received[i] = d at hd
  simp only [charErasures, correctedText, canonicalText, List.getElem?_map, hd, Option.map_some]
  rcases hchar i c d hc hd with rfl | ⟨hd, hplace⟩
  · have hup := hsym d (List.mem_of_getElem? hc)
    rw [transliterate_of_toUpper_mem_alph d hup (ne_108_of_toUpper_mem_alph d hup)]
    exact .inl ⟨rfl, rfl, rfl⟩
  · have herased := (transliterate_erased_iff d).2 hd
    rw [herased, transliterate_of_erased d herased]
    exact .inr ⟨rfl, rfl, hplace⟩

/-- A cut without an erased character comes through whole. -/
theorem slice_correctedText_of_onlyErased (hsym : ∀ c ∈ sent, toUpper c ∈ alph)
    (h : OnlyErased cfg sent received) {a n : Nat} (hera : true ∉ slice (charErasures received) a n) :
    slice (correctedText received) a n = slice sent a n := by
  apply List.ext_getElem?
  intro j
  rcases lt_or_ge j n with hj | hj
  · rw [getElem?_slice_of_lt _ _ hj, getElem?_slice_of_lt _ _ hj]
    cases hc : sent[a + j]? with
    | none =>
      have hge := List.getElem?_eq_none_iff.1 hc
      rw [List.getElem?_eq_none (by rw [correctedText_length, h.1]; exact hge)]
    | some c =>
      rcases onlyErased_char hsym h hc with ⟨-, hcorr, -⟩ | ⟨htrue, -⟩
      · exact hcorr
      · rw [← getElem?_slice_of_lt _ _ hj] at htrue
        exact absurd (List.mem_of_getElem? htrue) hera
  · rw [slice_getElem?, slice_getElem?, if_neg (Nat.not_lt.2 hj), if_neg (Nat.not_lt.2 hj)]

end

/-! ### The cap-parity bytes -/

/-- A byte that comes out of step DE4 is what `CAPDEC` read from its segment. -/
theorem capdec_of_recoveredCap {cfg : Cfg} {id : List CodeUnit} {g : Nat} {x : Byte}
    (h : (recoveredCap cfg id)[g]? = some (some x)) :
    g < cfg.capParityByteCount ∧
      capdec (slice (correctedText id) (segmentStart cfg g) cfg.capSegmentCharCount)
        (slice (charErasures id) (segmentStart cfg g) cfg.capSegmentCharCount) = some x := by
  have hg : g < cfg.capParityByteCount := by
    rw [← recoveredCap_length cfg id]
    exact (List.getElem?_eq_some_iff.1 h).1
  rw [recoveredCap] at h
  cases hlost : casingLost (segmentResults cfg (correctedText id) (charErasures id)) with
  | true =>
    rw [capchk_of_lost hlost, List.getElem?_replicate] at h
    split at h <;> cases h
  | false =>
    rw [capchk_of_not_lost hlost, segmentResults, List.getElem?_map, List.getElem?_range hg] at h
    exact ⟨hg, Option.some.inj h⟩

/-- What is recovered from such a string is what was sent (R144 (d)). -/
theorem recoveredCap_of_onlyErased {cfg : Cfg} {buffer cap : List Byte} {id received : List CodeUnit}
    (hid : Carries cfg buffer cap id) (hcap : cap.length = cfg.capParityByteCount)
    (h : OnlyErased cfg id received) (g : Nat) (x : Byte)
    (hx : (recoveredCap cfg received)[g]? = some (some x)) : cap[g]? = some x := by
  obtain ⟨hg, hdec⟩ := capdec_of_recoveredCap hx
  have hera : true ∉ slice (charErasures received) (segmentStart cfg g) cfg.capSegmentCharCount := by
    intro hmem
    rw [capdec_of_erased hmem] at hdec
    cases hdec
  have hb := List.getElem?_eq_getElem (hcap.symm ▸ hg : g < cap.length)
  obtain ⟨run, hrun⟩ := hid.segment g _ hb
  rw [slice_correctedText_of_onlyErased (fun _ => hid.toUpper_mem_alph) h hera, hrun,
    capdec_capenc run _ hera] at hdec
  split at hdec
  · rw [hb, hdec]
  · cases hdec

theorem capParity_length {rs : ReedSolomon} {cfg : Cfg} (hP : rs.ParityLength cfg) (key : List Byte) :
    (capParity cfg (rs.encode key)).length = cfg.capParityByteCount := by
  rw [capParity, slice_length_of_le (hP key).ge]

/-! ### The data bytes -/

/-- The stream bits of character `i` are those of its symbol (R54). -/
theorem symbolStream_getElem? {text : List CodeUnit} (hv : ∀ c ∈ text, ∃ v, c = sym v) {i : Nat}
    {v : Symbol} (h : text[i]? = some (sym v)) {t : Nat} (ht : t < 5) :
    (symbolStream text)[5 * i + t]? = (symbolBits v)[t]? := by
  induction text generalizing i with
  | nil => cases h
  | cons c cs ih =>
    obtain ⟨w, rfl⟩ := hv c (by simp)
    rw [symbolStream_sym_cons]
    cases i with
    | zero =>
      obtain rfl : w = v := by
        have hsym := congrArg symbolOf (Option.some.inj h)
        rw [symbolOf_sym, symbolOf_sym] at hsym
        exact Except.ok.inj hsym
      rw [Nat.mul_zero, Nat.zero_add, List.getElem?_append_left (by simpa using ht)]
    | succ i =>
      rw [List.getElem?_append_right (by simp; omega), symbolBits_length,
        show 5 * (i + 1) + t - 5 = 5 * i + t by omega]
      exact ih (fun c hc => hv c (by simp [hc])) (by simpa using h)

theorem symbolStream_getElem?_div {text : List CodeUnit} (hv : ∀ c ∈ text, ∃ v, c = sym v) {n : Nat}
    {v : Symbol} (h : text[n / 5]? = some (sym v)) : (symbolStream text)[n]? = (symbolBits v)[n % 5]? := by
  rw [← symbolStream_getElem? hv h (Nat.mod_lt n (by decide)), Nat.div_add_mod]

theorem symbolBits_zero_getElem? {t : Nat} (ht : t < 5) : (symbolBits 0)[t]? = some false := by
  have hzeros : symbolBits 0 = List.replicate 5 false := rfl
  rw [hzeros, List.getElem?_replicate, if_pos ht]

/-- A stream bit of such a string is the sent one, or it is a zero of an erased character behind the prefix. -/
theorem symbolStream_of_onlyErased {cfg : Cfg} {buffer cap : List Byte} {id received : List CodeUnit}
    (hid : Carries cfg buffer cap id) (h : OnlyErased cfg id received) {n : Nat}
    (hn : n < 5 * id.length) :
    (symbolStream (canonicalText received))[n]? = (symbolStream (b32enc buffer))[n]? ∨
      ((symbolStream (canonicalText received))[n]? = some false ∧
        (charErasures received)[n / 5]? = some true ∧ 8 * cfg.prefixBytes.length ≤ 5 * (n / 5)) := by
  have hcanon : ∀ c ∈ canonicalText received, ∃ v, c = sym v := fun c hc =>
    mem_alph_iff.1 (mem_alph_of_mem_canonicalText hc)
  have hsent : ∀ c ∈ b32enc buffer, ∃ v, c = sym v := fun c hc =>
    mem_alph_iff.1 (mem_alph_of_mem_b32enc hc)
  obtain ⟨c, hc⟩ : ∃ c, id[n / 5]? = some c := ⟨_, List.getElem?_eq_getElem (by omega)⟩
  obtain ⟨v, hv⟩ := mem_alph_iff.1 (hid.toUpper_mem_alph (List.mem_of_getElem? hc))
  have hget : (b32enc buffer)[n / 5]? = some (sym v) := by
    rw [← hid.map_toUpper, List.getElem?_map, hc, ← hv]
    rfl
  rw [symbolStream_getElem?_div hsent hget]
  have hplaceholder : (65 : CodeUnit) = sym 0 := rfl
  rcases onlyErased_char (fun _ => hid.toUpper_mem_alph) h hc with
    ⟨-, -, hkept⟩ | ⟨hera, hzero, hbehind | hsame⟩
  · exact .inl (symbolStream_getElem?_div hcanon (hv ▸ hkept))
  · rw [symbolStream_getElem?_div hcanon (hplaceholder ▸ hzero)]
    exact .inr ⟨symbolBits_zero_getElem? (Nat.mod_lt n (by decide)), hera, hbehind⟩
  · rw [← hsame, hv] at hzero
    exact .inl (symbolStream_getElem?_div hcanon hzero)

/-- A byte is decided by its eight stream bits. -/
theorem getElem?_eq_of_bitstream {d e : List Byte} (x y : List Bit) (hlen : d.length = e.length) {j : Nat}
    (hj : j < d.length)
    (h : ∀ t, t < 8 → (bitstream d ++ x)[8 * j + t]? = (bitstream e ++ y)[8 * j + t]?) :
    d[j]? = e[j]? := by
  rw [getElem?_eq_slice_bitstream hj, getElem?_eq_slice_bitstream (hlen ▸ hj),
    ← slice_bitstream_append hj x, ← slice_bitstream_append (hlen ▸ hj) y]
  congr 2
  apply List.ext_getElem?
  intro t
  rw [slice_getElem?, slice_getElem?]
  split
  · next ht => exact h t ht
  · rfl

/-- Such a string decodes: every byte that overlaps no erased character behind the prefix is the sent one. -/
theorem b32dec_of_onlyErased {cfg : Cfg} {buffer cap : List Byte} {id received : List CodeUnit}
    (hid : Carries cfg buffer cap id) (h : OnlyErased cfg id received) :
    ∃ full, b32dec (canonicalText received) = .ok full ∧ full.length = buffer.length ∧
      ∀ j, j < full.length →
        (∀ t, t < 8 → (charErasures received)[(8 * j + t) / 5]? = some true →
          5 * ((8 * j + t) / 5) < 8 * cfg.prefixBytes.length) →
        full[j]? = buffer[j]? := by
  obtain ⟨pad, hpad, hsent, hlen, -⟩ := b32enc_spec buffer
  have hidlen : (b32enc buffer).length = id.length := by rw [← hid.map_toUpper, List.length_map]
  have hcanonlen : (canonicalText received).length = id.length := by rw [canonicalText_length, h.1]
  obtain ⟨full, hstream, hfull, hdec⟩ := b32dec_of_symbols (text := canonicalText received)
    fun c hc => mem_alph_iff.1 (mem_alph_of_mem_canonicalText hc)
  rw [hcanonlen] at hfull hdec
  have hbytes : full.length = buffer.length := by omega
  have htail : true ∉ leftOver (canonicalText received) := by
    intro hmem
    obtain ⟨j, hj⟩ := List.mem_iff_getElem?.1 hmem
    have hrec : (symbolStream (canonicalText received))[8 * full.length + j]? = some true := by
      rw [hstream, List.getElem?_append_right (by simp), bitstream_length, Nat.add_sub_cancel_left, hj]
    have hn : 8 * full.length + j < 5 * id.length := by
      have := (List.getElem?_eq_some_iff.1 hrec).1
      rwa [symbolStream_length fun c hc => mem_alph_iff.1 (mem_alph_of_mem_canonicalText hc),
        hcanonlen] at this
    rcases symbolStream_of_onlyErased hid h hn with hsame | ⟨hfalse, -⟩
    · rw [hrec, hsent, List.getElem?_append_right (by simp [hbytes])] at hsame
      exact absurd (List.mem_of_getElem? hsame.symm) (by simp)
    · rw [hrec] at hfalse
      cases hfalse
  rw [if_pos ⟨by omega, htail⟩] at hdec
  refine ⟨full, hdec, hbytes, fun j hj hsafe => getElem?_eq_of_bitstream
    (leftOver (canonicalText received)) (List.replicate pad false) hbytes hj fun t ht => ?_⟩
  rw [← hstream, ← hsent]
  rcases symbolStream_of_onlyErased hid h (n := 8 * j + t) (by omega) with hsame | ⟨-, hera, hbehind⟩
  · exact hsame
  · exact absurd (hsafe t ht hera) (Nat.not_lt.2 hbehind)

/-- Such a string reaches correction, and its data bytes are right outside the erasures, where no character
behind the prefix stands before `skip` (R161, R184). -/
theorem reachesCorrection_of_onlyErased {rs : ReedSolomon} {cfg : Cfg} {key cap : List Byte}
    {id received : List CodeUnit} (hP : rs.ParityLength cfg) (hk : key.length = cfg.keyByteCount)
    (hskip : ∀ i, 8 * cfg.prefixBytes.length ≤ 5 * i → cfg.prefixCap.length ≤ i)
    (hid : Carries cfg (sentBuffer rs cfg key) cap id) (h : OnlyErased cfg id received) :
    ∃ full, ReachesCorrection cfg received full ∧
      ∀ b, b < cfg.keyByteCount + cfg.baseParityByteCount →
        b ∉ erasedPositions (receivedErasures cfg received) →
        full[cfg.prefixBytes.length + b]? =
          (sentBuffer rs cfg key)[cfg.prefixBytes.length + b]? := by
  obtain ⟨full, hdec, hlen, hbyte⟩ := b32dec_of_onlyErased hid h
  have hbuf := sentBuffer_length hP hk
  refine ⟨full, ⟨hdec, ?_⟩, fun b hb hne => hbyte _ (by omega) fun t ht hera => ?_⟩
  · have hpre : slice (sentBuffer rs cfg key) 0 cfg.prefixBytes.length = cfg.prefixBytes := by
      rw [sentBuffer, List.append_assoc, slice_append_left]
    refine Eq.trans (List.ext_getElem? fun j => ?_) hpre
    rw [slice_getElem?, slice_getElem?, Nat.zero_add]
    split
    · exact hbyte j (by omega) fun t ht _ => by omega
    · rfl
  · by_contra hbehind
    refine hne ((mem_erasedPositions_received (by omega)).2
      (.inr ⟨_, hskip _ (Nat.not_lt.1 hbehind), hera, ?_⟩))
    omega

/-! ### The boundary -/

/-- A codeword that is right outside its erasures, once corrected, gives the key; a clean one is the sent
codeword. -/
theorem hcDecode_of_right {rs : ReedSolomon} {cfg : Cfg} {key full : List Byte} {id : List CodeUnit}
    {s : State} (hs : s.cfg = cfg) (hl : cfg.legal = true) (hk : key.length = cfg.keyByteCount)
    (hm : id.length = cfg.encodedCharCount) (hr : ReachesCorrection cfg id full)
    (hbudget : erasureCount (receivedErasures cfg id) ≤ erasureBudget cfg)
    (hright : ∀ b, b < (receivedCodeword cfg id full).length →
      b ∉ erasedPositions (receivedErasures cfg id) →
      (receivedCodeword cfg id full)[b]? = (key ++ rs.encode key)[b]?)
    (hfix : rs.correct (receivedCodeword cfg id full) (erasedPositions (receivedErasures cfg id)) =
      some (key ++ rs.encode key)) : ∃ u, hcDecode rs id s = .next (u, .ok key) := by
  refine hcDecode_of_corrected hs hl hk hm hr hbudget hfix fun hnone _ =>
    take_eq_key (parity := rs.encode key) fun b hb => hright b ?_ (by simp [hnone])
  rw [receivedCodeword_length (full_length hl hm hr.1)]
  omega

/-- Settles O48: within the budget the codeword is right outside its erasures, which the primitive repairs;
beyond it step DE9 fails. -/
theorem erasureBoundary : Obligations.ErasureBoundary := by
  intro rs p key s hp hs hP hfix hk
  have hl : s.cfg.legal = true := hs ▸ legal_source hp
  have hk' : key.length = s.cfg.keyByteCount := by rw [hs]; exact hk
  have hskip : ∀ i, 8 * s.cfg.prefixBytes.length ≤ 5 * i → s.cfg.prefixCap.length ≤ i := by
    intro i hi
    have hplen : s.cfg.prefixBytes.length = 3 := by rw [hs]; exact hp
    have hpcl : s.cfg.prefixCap.length = 3 := by rw [hs]; rfl
    omega
  obtain ⟨t, id, henc, ht, hid⟩ := hcEncode_carries hl hP hk'
  refine ⟨t, id, henc, fun received h => ?_⟩
  have hm : received.length = s.cfg.encodedCharCount := h.1.trans hid.length_eq
  obtain ⟨full, hr, hdata⟩ := reachesCorrection_of_onlyErased hP hk' hskip hid h
  have hf := full_length hl hm hr.1
  have hright := fun b => receivedCodeword_of_right (b := b) hP hk' hf hdata
    (recoveredCap_of_onlyErased hid (capParity_length hP key) h)
  constructor
  · intro hbudget
    refine hcDecode_of_right ht hl hk' hm hr hbudget hright ?_
    refine hfix key _ _ hk' ((receivedCodeword_length hf).trans (sentCodeword_length hP hk').symm)
      (nodup_erasedPositions _)
      (fun b hb => (receivedCodeword_length hf).symm ▸ lt_of_mem_erasedPositions_received hb)
      ?_ hright (fun b hb => receivedCodeword_of_erased hf hb)
    rw [length_erasedPositions]
    exact hbudget.trans (Nat.div_le_self _ 2)
  · intro hover
    obtain ⟨u, -, hana⟩ := hcAnalyse_of_reachesCorrection (ht ▸ hl : t.cfg.legal = true)
      (ht ▸ hm) (ht ▸ hr)
    rw [ht, if_pos hover] at hana
    exact ⟨u, hcDecode_of_hcAnalyse_error rs hana⟩

end Sys2Proof.Machine
end

section
/-! PROOF. The round trip and the loss of the casing (spec/45_host_pipeline.md rule R191 (a), (d);
spec/43_capitalization_parity_packer.md rules R146, R147): the text comes through without an erased character,
so that only cap-parity positions can be erased, and those the primitive repairs. -/

namespace Sys2Proof.Machine

/-! ### Erased cap-parity bytes -/

section
variable {rs : ReedSolomon} {cfg : Cfg} {key : List Byte} {received : List CodeUnit} {s : State}

/-- Where the sent text comes through and every recovered byte is the sent one, `HC.DECODE` ends with the
key, with P within the budget. -/
theorem hcDecode_of_sentBuffer (hs : s.cfg = cfg) (hl : cfg.legal = true) (hP : rs.ParityLength cfg)
    (hfix : rs.RepairsCapErasures cfg) (hk : key.length = cfg.keyByteCount)
    (hbudget : cfg.capParityByteCount ≤ erasureBudget cfg) (hm : received.length = cfg.encodedCharCount)
    (hcanon : canonicalText received = b32enc (sentBuffer rs cfg key))
    (hera : true ∉ charErasures received)
    (hcap : ∀ (g : Nat) (x : Byte), (recoveredCap cfg received)[g]? = some (some x) →
      (capParity cfg (rs.encode key))[g]? = some x) :
    ∃ u, hcDecode rs received s = .next (u, .ok key) := by
  have hf := sentBuffer_length hP hk
  have hlen := receivedCodeword_length (id := received) hf
  have hcount : erasureCount (receivedErasures cfg received) ≤ cfg.capParityByteCount :=
    (Nat.le_add_right _ _).trans (damage_sentBuffer_le hP hk hera)
  have hright := fun b => receivedCodeword_of_right (b := b) hP hk hf (fun _ _ _ => rfl) hcap
  refine hcDecode_of_right hs hl hk hm (reachesCorrection_of_canonicalText hcanon)
    (hcount.trans hbudget) hright ?_
  exact hfix key _ _ hk (hlen.trans (sentCodeword_length hP hk).symm) (nodup_erasedPositions _)
    (fun b hb => ⟨mem_erasedPositions_of_no_erased_char hera hb,
      hlen.symm ▸ lt_of_mem_erasedPositions_received hb⟩)
    hright (fun b hb => receivedCodeword_of_erased hf hb)

/-- A string of the sent characters, in any case, is corrected to the sent text without an erasure. -/
theorem tlcorr_of_map_toUpper {buffer : List Byte} (h : received.map toUpper = b32enc buffer) :
    correctedText received = received ∧ canonicalText received = b32enc buffer ∧
      true ∉ charErasures received := by
  obtain ⟨hcorr, hcanon, hera⟩ := tlcorr_of_symbols (text := received) fun c hc =>
    mem_alph_of_mem_b32enc (h ▸ List.mem_map_of_mem hc)
  exact ⟨hcorr, hcanon.trans h, by simp [hera]⟩

end

/-! ### The round trip -/

/-- In the source's configuration all P cap-parity bytes may be erased. -/
theorem capParityByteCount_le_erasureBudget {cfg : Cfg} {p : List Byte} (h : cfg = Cfg.source p) :
    cfg.capParityByteCount ≤ erasureBudget cfg := by
  rw [h]
  exact (erasureBudget_source p).ge

/-- Settles O42: the sent string comes through, and what `CAPDEC` recovers from its segments is what was
sent. -/
theorem encodedKeysDecode : Obligations.EncodedKeysDecode := by
  intro rs p key s hp hs hP _ hfix hk
  have hl : s.cfg.legal = true := hs ▸ legal_source hp
  have hk' : key.length = s.cfg.keyByteCount := by rw [hs]; exact hk
  obtain ⟨t, id, henc, ht, hid⟩ := hcEncode_carries hl hP hk'
  obtain ⟨-, hcanon, hera⟩ := tlcorr_of_map_toUpper hid.map_toUpper
  obtain ⟨u, hdec⟩ := hcDecode_of_sentBuffer ht hl hP hfix hk'
    (capParityByteCount_le_erasureBudget hs) hid.length_eq hcanon hera
    (recoveredCap_of_onlyErased hid (capParity_length hP key) (onlyErased_refl _ id))
  exact ⟨t, id, u, henc, hdec⟩

/-! ### The loss of the casing -/

/-- A run whose letters all have one case reads as 00, or as FF, or not at all. -/
theorem capdec_of_one_case {run : List CodeUnit} {v : Bit} (h : ∀ c ∈ run, caseBit c ≠ some (!v))
    {era : List Bit} {x : Byte} (hx : capdec run era = some x) : x = if v then 0xFF else 0x00 := by
  have hbits : ∀ b ∈ run.filterMap caseBit, b = v := by
    intro b hb
    obtain ⟨c, hc, hcb⟩ := List.mem_filterMap.1 hb
    by_contra hne
    exact h c hc (hcb.trans (congrArg some (Bool.eq_not_of_ne hne)))
  rw [capdec_eq] at hx
  split at hx
  · cases hx
  · next hletters =>
    have hlen : ((run.filterMap caseBit).take 8).length = 8 := by
      rw [List.length_take, length_filterMap_caseBit]
      omega
    have hall := List.eq_replicate_of_mem fun b hb =>
      hbits b (List.mem_of_mem_take (i := 8) hb)
    rw [hlen] at hall
    rw [hall] at hx
    rw [← Option.some.inj hx]
    cases v <;> rfl

/-- A text whose letters all have one case has lost its casing: nothing is recovered from it (R146). -/
theorem recoveredCap_of_one_case {cfg : Cfg} {id : List CodeUnit} {v : Bit}
    (h : ∀ c ∈ correctedText id, caseBit c ≠ some (!v)) :
    recoveredCap cfg id = List.replicate cfg.capParityByteCount none := by
  have hread : ∀ b, some b ∈ segmentResults cfg (correctedText id) (charErasures id) →
      b = if v then 0xFF else 0x00 := by
    intro b hb
    obtain ⟨g, -, hg⟩ := List.mem_map.1 hb
    refine capdec_of_one_case (fun c hc => h c ?_) hg
    exact List.mem_of_mem_drop (List.mem_of_mem_take hc)
  have hlost : casingLost (segmentResults cfg (correctedText id) (charErasures id)) = true := by
    rw [casingLost_iff]
    cases v
    · exact .inl hread
    · exact .inr hread
  rw [recoveredCap, capchk_of_lost hlost, segmentResults, List.length_map, List.length_range]

/-- With all cap-parity bytes erased there is an erasure, so the string counts as corrupt (R190). -/
theorem hcIscorrupt_of_erased {rs : ReedSolomon} {cfg : Cfg} {id : List CodeUnit} {full : List Byte}
    {s : State} (hs : s.cfg = cfg) (hl : cfg.legal = true) (hm : id.length = cfg.encodedCharCount)
    (hr : ReachesCorrection cfg id full) (hpos : 0 < erasureCount (receivedErasures cfg id)) :
    ∃ u, hcIscorrupt rs id s = .next (u, .ok true) := by
  subst hs
  obtain ⟨u, -, hana⟩ := hcAnalyse_of_reachesCorrection hl hm hr
  split at hana
  · exact ⟨u, hcIscorrupt_of_hcAnalyse rs hana⟩
  · refine ⟨u, (hcIscorrupt_of_hcAnalyse rs hana).trans ?_⟩
    rw [corruptVerdict, if_pos hpos]

/-- A string of the sent characters with its casing lost decodes to the key and counts as corrupt. -/
theorem tolerates_one_case {rs : ReedSolomon} {cfg : Cfg} {key : List Byte} {received : List CodeUnit}
    {v : Bit} {s : State} (hs : s.cfg = cfg) (hl : cfg.legal = true) (hP : rs.ParityLength cfg)
    (hfix : rs.RepairsCapErasures cfg) (hk : key.length = cfg.keyByteCount)
    (hbudget : cfg.capParityByteCount ≤ erasureBudget cfg) (hpos : 0 < cfg.capParityByteCount)
    (hm : received.length = cfg.encodedCharCount)
    (htext : received.map toUpper = b32enc (sentBuffer rs cfg key))
    (hcase : ∀ c ∈ received, caseBit c ≠ some (!v)) :
    (∃ u, hcDecode rs received s = .next (u, .ok key)) ∧
      ∃ u, hcIscorrupt rs received s = .next (u, .ok true) := by
  obtain ⟨hcorr, hcanon, hera⟩ := tlcorr_of_map_toUpper htext
  have hnone := recoveredCap_of_one_case (cfg := cfg) (hcorr.symm ▸ hcase)
  constructor
  · refine hcDecode_of_sentBuffer hs hl hP hfix hk hbudget hm hcanon hera fun g x hx => ?_
    rw [hnone, List.getElem?_replicate] at hx
    split at hx <;> cases hx
  · refine hcIscorrupt_of_erased hs hl hm (reachesCorrection_of_canonicalText hcanon) ?_
    have hfirst : (recoveredCap cfg received)[0]? = some none := by
      rw [hnone, List.getElem?_replicate, if_pos hpos]
    rw [← length_erasedPositions]
    exact List.length_pos_of_mem (mem_erasedPositions_of_recoveredCap hfirst)

theorem caseBit_toLower_ne (c : CodeUnit) : caseBit (toLower c) ≠ some true := by
  cases h : isAlpha c with
  | true => simp [(caseBit_of_isAlpha c h).2]
  | false =>
    obtain ⟨-, hlower, hnone⟩ := case_of_not_isAlpha c h
    simp [hlower, hnone]

theorem caseBit_toUpper_ne (c : CodeUnit) : caseBit (toUpper c) ≠ some false := by
  cases h : isAlpha c with
  | true => simp [(caseBit_of_isAlpha c h).1]
  | false =>
    obtain ⟨hupper, -, hnone⟩ := case_of_not_isAlpha c h
    simp [hupper, hnone]

/-- Settles O43: in lowercase every letter carries 0, in uppercase 1; both lose the casing and nothing else. -/
theorem casingLossIsTolerated : Obligations.CasingLossIsTolerated := by
  intro rs p key s hp hs hP _ hfix hk
  have hl : s.cfg.legal = true := hs ▸ legal_source hp
  have hk' : key.length = s.cfg.keyByteCount := by rw [hs]; exact hk
  have hpos : 0 < s.cfg.capParityByteCount := by rw [hs]; exact Nat.succ_pos 3
  obtain ⟨t, id, henc, ht, hid⟩ := hcEncode_carries hl hP hk'
  have htolerates (f : CodeUnit → CodeUnit) (v : Bit) (hf : ∀ c, toUpper (f c) = toUpper c)
      (hcase : ∀ c, caseBit (f c) ≠ some (!v)) :
      (∃ u, hcDecode rs (id.map f) t = .next (u, .ok key)) ∧
        ∃ u, hcIscorrupt rs (id.map f) t = .next (u, .ok true) := by
    refine tolerates_one_case (v := v) ht hl hP hfix hk' (capParityByteCount_le_erasureBudget hs) hpos
      ((List.length_map _).trans hid.length_eq) ?_ fun c hc => ?_
    · rw [List.map_map, ← hid.map_toUpper]
      exact List.map_congr_left fun c _ => hf c
    · obtain ⟨d, -, rfl⟩ := List.mem_map.1 hc
      exact hcase d
  obtain ⟨hdecLower, hcorLower⟩ := htolerates toLower false toUpper_toLower caseBit_toLower_ne
  obtain ⟨hdecUpper, hcorUpper⟩ := htolerates toUpper true toUpper_toUpper caseBit_toUpper_ne
  exact ⟨t, id, henc, hdecLower, hdecUpper, hcorLower, hcorUpper⟩

end Sys2Proof.Machine
end
